-- ==== Sys2Proof/Word.lean ====
section
/-! DEFINITION. The value types of the machine (spec 00_scope.md R6, R7): every value is an unsigned
integer of a stated width, so each width is a bit vector of that width. -/

namespace Sys2Proof

/-- u8: a general register, a timer, a byte of memory (R7, R20, R25, R27). -/
abbrev Byte := BitVec 8

/-- u16: an instruction word, the index register, the program counter, a return address
(R7, R22, R23, R24). -/
abbrev Word := BitVec 16

/-- u12: an address of `MEM`, 0x000 to 0xFFF (R40). Every value of the type is an existing address. -/
abbrev Addr := BitVec 12

/-- The index of a general register, 0 to 15 (R20). -/
abbrev Reg := Fin 16

/-- The code of a key, 0 to 15 (R30). -/
abbrev Key := Fin 16

/-- V[15], written VF: the flag register (R21). -/
abbrev vf : Reg := 15

/-- V[0], the register BNNN adds (R113). -/
abbrev v0 : Reg := 0

end Sys2Proof
end

