-- ==== Sys2Proof/Machine/Flags.lean ====
section
/-! DEFINITION. The arithmetic on general registers and the value each instruction gives VF (spec
10_state.md R21, 40_step.md R88): operands as natural numbers, the exact result, then the stated
reduction. -/

namespace Sys2Proof.Machine

/-- A flag as the byte VF receives: 1 or 0 (R21). -/
def flagByte (f : Bool) : Byte := if f then 1#8 else 0#8

/-- `(a + b) mod 256` (R131, R136). -/
def addBytes (a b : Byte) : Byte := BitVec.ofNat 8 ((a.toNat + b.toNat) % 256)

/-- Carry: the sum exceeds 255 (R136). -/
def carryOut (a b : Byte) : Bool := decide (a.toNat + b.toNat > 255)

/-- `(a - b) mod 256` (R137, R139). -/
def subBytes (a b : Byte) : Byte := BitVec.ofNat 8 ((a.toNat + 256 - b.toNat) % 256)

/-- No borrow: the minuend is at least the subtrahend (R137, R139). -/
def noBorrow (a b : Byte) : Bool := decide (b.toNat ≤ a.toNat)

/-- `a >> 1`, logical (R138). -/
def shrByte (a : Byte) : Byte := BitVec.ofNat 8 (a.toNat / 2)

/-- The bit shifted out on the right, `a AND 1` (R138). -/
def shrOut (a : Byte) : Bool := decide (a.toNat % 2 = 1)

/-- `(a << 1) mod 256` (R140). -/
def shlByte (a : Byte) : Byte := BitVec.ofNat 8 (a.toNat * 2 % 256)

/-- The bit shifted out on the left, `a >> 7` (R140). -/
def shlOut (a : Byte) : Bool := decide (a.toNat / 128 = 1)

end Sys2Proof.Machine
end

