-- ==== Sys2Proof/Syntax.lean ====
section
/-! DEFINITION. The 34 instructions of the opcode map (spec 30_encoding.md R64), one constructor per row
of spec/opcode_table.json, in the table's order. -/

namespace Sys2Proof

/-- The instructions. `x` and `y` are register indices (or, in FX55 and FX65, the index of the last
register), `nn` an immediate byte, `nnn` a 12-bit address and `n` a row count (R61, R63). The address
and the count are natural numbers whose range is checked by `Instr.wf`. -/
inductive Instr
  /-- 00E0: clear the display (R100). -/
  | cls
  /-- 00EE: return (R110). -/
  | ret
  /-- 1NNN: jump (R111). -/
  | jp (nnn : Nat)
  /-- 2NNN: call (R112). -/
  | call (nnn : Nat)
  /-- 3XNN: skip if register equals immediate (R120). -/
  | seImm (x : Reg) (nn : Byte)
  /-- 4XNN: skip if register differs from immediate (R121). -/
  | sneImm (x : Reg) (nn : Byte)
  /-- 5XY0: skip if registers equal (R122). -/
  | seReg (x y : Reg)
  /-- 6XNN: load immediate (R130). -/
  | ldImm (x : Reg) (nn : Byte)
  /-- 7XNN: add immediate (R131). -/
  | addImm (x : Reg) (nn : Byte)
  /-- 8XY0: copy register (R132). -/
  | ldReg (x y : Reg)
  /-- 8XY1: bitwise OR (R133). -/
  | orReg (x y : Reg)
  /-- 8XY2: bitwise AND (R134). -/
  | andReg (x y : Reg)
  /-- 8XY3: bitwise XOR (R135). -/
  | xorReg (x y : Reg)
  /-- 8XY4: add with carry out (R136). -/
  | addReg (x y : Reg)
  /-- 8XY5: subtract (R137). -/
  | sub (x y : Reg)
  /-- 8XY6: shift right by one; the field `y` is encoded and ignored (R138, R67). -/
  | shr (x y : Reg)
  /-- 8XY7: reverse subtract (R139). -/
  | subn (x y : Reg)
  /-- 8XYE: shift left by one; the field `y` is encoded and ignored (R140, R67). -/
  | shl (x y : Reg)
  /-- 9XY0: skip if registers differ (R123). -/
  | sneReg (x y : Reg)
  /-- ANNN: load index (R150). -/
  | ldI (nnn : Nat)
  /-- BNNN: jump with offset V[0] (R113). -/
  | jpV0 (nnn : Nat)
  /-- CXNN: masked random byte (R141). -/
  | rnd (x : Reg) (nn : Byte)
  /-- DXYN: draw a sprite of `n` rows (R101). -/
  | drw (x y : Reg) (n : Nat)
  /-- EX9E: skip if key pressed (R160). -/
  | skp (x : Reg)
  /-- EXA1: skip if key not pressed (R161). -/
  | sknp (x : Reg)
  /-- FX07: read the delay timer (R163). -/
  | ldVxDt (x : Reg)
  /-- FX0A: wait for a key (R162). -/
  | ldVxK (x : Reg)
  /-- FX15: set the delay timer (R164). -/
  | ldDtVx (x : Reg)
  /-- FX18: set the sound timer (R165). -/
  | ldStVx (x : Reg)
  /-- FX1E: add register to index (R151). -/
  | addI (x : Reg)
  /-- FX29: index of font glyph (R152). -/
  | ldF (x : Reg)
  /-- FX33: store decimal digits (R153). -/
  | ldB (x : Reg)
  /-- FX55: store registers V0 to VX (R154). -/
  | ldMemVx (x : Reg)
  /-- FX65: load registers V0 to VX (R155). -/
  | ldVxMem (x : Reg)
  deriving DecidableEq, Repr

end Sys2Proof
end

