-- ==== Sys2Proof/WellFormed.lean ====
section
/-! DEFINITION. The operand ranges of an instruction (spec 30_encoding.md R61, R63, R71: "with each
operand in its range"). Register indices and immediate bytes are in range by their types; an address
`nnn` and a row count `n` are checked here. -/

namespace Sys2Proof

/-- Every operand is in the range of its field: `nnn` is a u12, `n` a u4 (R61). -/
def Instr.wf : Instr → Bool
  | .jp nnn | .call nnn | .ldI nnn | .jpV0 nnn => decide (nnn < 4096)
  | .drw _ _ n => decide (n < 16)
  | .cls | .ret => true
  | .seImm _ _ | .sneImm _ _ | .ldImm _ _ | .addImm _ _ | .rnd _ _ => true
  | .seReg _ _ | .sneReg _ _ | .ldReg _ _ | .orReg _ _ | .andReg _ _ | .xorReg _ _ | .addReg _ _
  | .sub _ _ | .shr _ _ | .subn _ _ | .shl _ _ => true
  | .skp _ | .sknp _ | .ldVxDt _ | .ldVxK _ | .ldDtVx _ | .ldStVx _ | .addI _ | .ldF _ | .ldB _
  | .ldMemVx _ | .ldVxMem _ => true

/-- The instruction can be encoded: each operand is in the range of its field. -/
abbrev WellFormed (i : Instr) : Prop := i.wf = true

end Sys2Proof
end

