-- ==== Sys2Proof/Decode.lean ====
section
/-! DEFINITION. Decoding (spec 30_encoding.md R60 to R67) and, after it, the encoder (R71). Both are
written from the opcode map of R64: `decodeWord` by primary opcode and secondary field, the encoder
from each row's match value. -/

namespace Sys2Proof

/-- Bits 15:12 of an instruction word: the primary opcode (R61). -/
def opTop (op : Word) : BitVec 4 := op.extractLsb' 12 4

/-- Bits 11:8: the first register index (R61). -/
def opX (op : Word) : Reg := ⟨(op.extractLsb' 8 4).toNat, (op.extractLsb' 8 4).isLt⟩

/-- Bits 7:4: the second register index (R61). -/
def opY (op : Word) : Reg := ⟨(op.extractLsb' 4 4).toNat, (op.extractLsb' 4 4).isLt⟩

/-- Bits 3:0 (R61). -/
def opN (op : Word) : BitVec 4 := op.extractLsb' 0 4

/-- Bits 7:0: the immediate byte or function byte (R61). -/
def opNN (op : Word) : Byte := op.extractLsb' 0 8

/-- Bits 11:0: the address (R61). -/
def opNNN (op : Word) : BitVec 12 := op.extractLsb' 0 12

/-- The primary opcode 0: the whole word selects (R64, R66 (a)). -/
def decodeTop0 (op : Word) : Option Instr :=
  if op = 0x00E0#16 then some .cls
  else if op = 0x00EE#16 then some .ret
  else none

/-- The primary opcode 8: bits 3:0 select (R64). -/
def decodeTop8 (op : Word) : Option Instr :=
  match (opN op).toNat with
  | 0x0 => some (.ldReg (opX op) (opY op))
  | 0x1 => some (.orReg (opX op) (opY op))
  | 0x2 => some (.andReg (opX op) (opY op))
  | 0x3 => some (.xorReg (opX op) (opY op))
  | 0x4 => some (.addReg (opX op) (opY op))
  | 0x5 => some (.sub (opX op) (opY op))
  | 0x6 => some (.shr (opX op) (opY op))
  | 0x7 => some (.subn (opX op) (opY op))
  | 0xE => some (.shl (opX op) (opY op))
  | _ => none

/-- The primary opcode E: bits 7:0 select (R64). -/
def decodeTopE (op : Word) : Option Instr :=
  match (opNN op).toNat with
  | 0x9E => some (.skp (opX op))
  | 0xA1 => some (.sknp (opX op))
  | _ => none

/-- The primary opcode F: bits 7:0 select (R64). -/
def decodeTopF (op : Word) : Option Instr :=
  match (opNN op).toNat with
  | 0x07 => some (.ldVxDt (opX op))
  | 0x0A => some (.ldVxK (opX op))
  | 0x15 => some (.ldDtVx (opX op))
  | 0x18 => some (.ldStVx (opX op))
  | 0x1E => some (.addI (opX op))
  | 0x29 => some (.ldF (opX op))
  | 0x33 => some (.ldB (opX op))
  | 0x55 => some (.ldMemVx (opX op))
  | 0x65 => some (.ldVxMem (opX op))
  | _ => none

/-- Dispatch on the primary opcode (R64). `none` is an unmatched opcode (R65). 5XY0 and 9XY0 match only
with bits 3:0 zero (R66 (b)). -/
def decodeWord (op : Word) : Option Instr :=
  match (opTop op).toNat with
  | 0x0 => decodeTop0 op
  | 0x1 => some (.jp (opNNN op).toNat)
  | 0x2 => some (.call (opNNN op).toNat)
  | 0x3 => some (.seImm (opX op) (opNN op))
  | 0x4 => some (.sneImm (opX op) (opNN op))
  | 0x5 => if opN op = 0#4 then some (.seReg (opX op) (opY op)) else none
  | 0x6 => some (.ldImm (opX op) (opNN op))
  | 0x7 => some (.addImm (opX op) (opNN op))
  | 0x8 => decodeTop8 op
  | 0x9 => if opN op = 0#4 then some (.sneReg (opX op) (opY op)) else none
  | 0xA => some (.ldI (opNNN op).toNat)
  | 0xB => some (.jpV0 (opNNN op).toNat)
  | 0xC => some (.rnd (opX op) (opNN op))
  | 0xD => some (.drw (opX op) (opY op) (opN op).toNat)
  | 0xE => decodeTopE op
  | _ => decodeTopF op

/-- Why bytes do not decode. -/
inductive Reject
  /-- The word matches no row of the opcode map (R65); the name is that of the spec's report (R85). -/
  | unknownOpcode (op : Word)
  /-- Fewer than two bytes: every instruction is two bytes long (R60). -/
  | truncated
  deriving DecidableEq, Repr

/-- What a list of bytes decodes to: an instruction and the bytes after it, or a named rejection. -/
inductive Decoded
  | ok (i : Instr) (rest : List Byte)
  | rejected (why : Reject)
  deriving DecidableEq, Repr

/-- The instruction word of two consecutive bytes: the byte at the lower address supplies bits 15:8
(R42). -/
def wordOfBytes (hi lo : Byte) : Word := hi ++ lo

/-- The decoder: two bytes, big-endian, then the opcode map (R42, R60, R64). -/
def decode : List Byte → Decoded
  | hi :: lo :: rest =>
    match decodeWord (wordOfBytes hi lo) with
    | some i => .ok i rest
    | none => .rejected (.unknownOpcode (wordOfBytes hi lo))
  | _ => .rejected .truncated

/-- The byte of bits 15:8 of a word, stored at the lower address (R42, R71). -/
def highByte (op : Word) : Byte := op.extractLsb' 8 8

/-- The byte of bits 7:0 of a word, stored at the higher address (R42, R71). -/
def lowByte (op : Word) : Byte := op.extractLsb' 0 8

/-- The fixed bits of an instruction's row: the column `match` of R64. -/
def Instr.matchBits : Instr → Word
  | .cls => 0x00E0#16
  | .ret => 0x00EE#16
  | .jp _ => 0x1000#16
  | .call _ => 0x2000#16
  | .seImm _ _ => 0x3000#16
  | .sneImm _ _ => 0x4000#16
  | .seReg _ _ => 0x5000#16
  | .ldImm _ _ => 0x6000#16
  | .addImm _ _ => 0x7000#16
  | .ldReg _ _ => 0x8000#16
  | .orReg _ _ => 0x8001#16
  | .andReg _ _ => 0x8002#16
  | .xorReg _ _ => 0x8003#16
  | .addReg _ _ => 0x8004#16
  | .sub _ _ => 0x8005#16
  | .shr _ _ => 0x8006#16
  | .subn _ _ => 0x8007#16
  | .shl _ _ => 0x800E#16
  | .sneReg _ _ => 0x9000#16
  | .ldI _ => 0xA000#16
  | .jpV0 _ => 0xB000#16
  | .rnd _ _ => 0xC000#16
  | .drw _ _ _ => 0xD000#16
  | .skp _ => 0xE09E#16
  | .sknp _ => 0xE0A1#16
  | .ldVxDt _ => 0xF007#16
  | .ldVxK _ => 0xF00A#16
  | .ldDtVx _ => 0xF015#16
  | .ldStVx _ => 0xF018#16
  | .addI _ => 0xF01E#16
  | .ldF _ => 0xF029#16
  | .ldB _ => 0xF033#16
  | .ldMemVx _ => 0xF055#16
  | .ldVxMem _ => 0xF065#16

/-- Which bits of an instruction's row are fixed: the column `mask` of R64, by format (R62). -/
def Instr.maskBits : Instr → Word
  | .cls | .ret => 0xFFFF#16
  | .jp _ | .call _ | .ldI _ | .jpV0 _ => 0xF000#16
  | .seImm _ _ | .sneImm _ _ | .ldImm _ _ | .addImm _ _ | .rnd _ _ => 0xF000#16
  | .seReg _ _ | .sneReg _ _ | .ldReg _ _ | .orReg _ _ | .andReg _ _ | .xorReg _ _ | .addReg _ _
  | .sub _ _ | .shr _ _ | .subn _ _ | .shl _ _ => 0xF00F#16
  | .drw _ _ _ => 0xF000#16
  | .skp _ | .sknp _ | .ldVxDt _ | .ldVxK _ | .ldDtVx _ | .ldStVx _ | .addI _ | .ldF _ | .ldB _
  | .ldMemVx _ | .ldVxMem _ => 0xF0FF#16

/-- A register index in bits 11:8 (R71: `x << 8`). -/
def putX (x : Reg) : Word := BitVec.ofNat 16 x.val <<< 8

/-- A register index in bits 7:4 (R71: `y << 4`). -/
def putY (y : Reg) : Word := BitVec.ofNat 16 y.val <<< 4

/-- The operand bits of an instruction, each at its place in the format (R62, R71). -/
def Instr.operandBits : Instr → Word
  | .cls | .ret => 0#16
  | .jp nnn | .call nnn | .ldI nnn | .jpV0 nnn => (BitVec.ofNat 12 nnn).setWidth 16
  | .seImm x nn | .sneImm x nn | .ldImm x nn | .addImm x nn | .rnd x nn => putX x ||| nn.setWidth 16
  | .seReg x y | .sneReg x y | .ldReg x y | .orReg x y | .andReg x y | .xorReg x y | .addReg x y
  | .sub x y | .shr x y | .subn x y | .shl x y => putX x ||| putY y
  | .drw x y n => putX x ||| putY y ||| (BitVec.ofNat 4 n).setWidth 16
  | .skp x | .sknp x | .ldVxDt x | .ldVxK x | .ldDtVx x | .ldStVx x | .addI x | .ldF x | .ldB x
  | .ldMemVx x | .ldVxMem x => putX x

/-- The instruction word: the row's match value OR the operands at their places (R71). -/
def encodeWord (i : Instr) : Word := i.matchBits ||| i.operandBits

/-- The two bytes of an instruction as they are stored, high byte first (R71). -/
def encode (i : Instr) : List Byte := [highByte (encodeWord i), lowByte (encodeWord i)]

/-- The word the opcode table's bits stand for; the table numbers bits of a single 16-bit word, and
bits at and above `nbits` are 0. -/
def tableWord (nbits w : Nat) : Word := BitVec.ofNat 16 (w % 2 ^ nbits)

/-- What the decoder reads from an instruction whose bits, as spec/opcode_table.json numbers them, are
`w`: the word's two bytes in storage order are given to `decode`. -/
def decodeTableWord (nbits w : Nat) : Option Instr :=
  match decode [highByte (tableWord nbits w), lowByte (tableWord nbits w)] with
  | .ok i _ => some i
  | .rejected _ => none

end Sys2Proof
end

