-- ==== Sys2Proof/Config.lean ====
section
/-! DEFINITION. The sizes that are fixed (spec 00_scope.md R5) and the one free value of the
machine, the random byte of CXNN (R141, R189). -/

namespace Sys2Proof

/-- MEM_SIZE (R5): the number of bytes of `MEM`. -/
abbrev Config.memSize : Nat := 4096

/-- ROM_BASE (R5): where `Load` puts a program. -/
abbrev Config.romBase : Nat := 0x200

/-- RESET_PC (R5): the fixed entry point. -/
abbrev Config.resetPc : Word := 0x200#16

/-- The byte that the k-th execution of CXNN draws: a FREE VALUE with no body, so that nothing can
be proved about any draw (R141, R189, decision D11; log entry 3). -/
opaque Config.randByte : Nat → Byte

end Sys2Proof
end

