-- ==== Sys2Proof/Machine/Params.lean ====
section
/-! DEFINITION. The two open parameters of the machine, STACK_DEPTH and FONT (spec 00_scope.md R5;
93_implementation_defined.md U1 and U4), which a model takes as arguments, and the values this spec
takes for the hardware. -/

namespace Sys2Proof.Machine

/-- The 80 bytes that `Reset` writes at 0x000 to 0x04F (R28). -/
abbrev Font := Vector Byte 80

/-- The open parameters. They are fixed for a machine: no event and no instruction writes them. -/
structure Params where
  /-- STACK_DEPTH: `some d` is a stack of `d` entries, `none` is `unbounded` (R5, R24). -/
  depth : Option Nat
  /-- FONT: glyph `d` is the five bytes from index `5 * d` on (R5, R28). -/
  font : Font
  deriving DecidableEq, Repr

/-- STACK_DEPTH is "a positive integer or `unbounded`" (R5); every FONT is admitted. -/
def Params.wf (p : Params) : Bool := p.depth != some 0

/-- Glyphs 0 to 3 of the default FONT (R28). -/
def glyphs0to3 : List Byte :=
  [0xF0, 0x90, 0x90, 0x90, 0xF0,  0x20, 0x60, 0x20, 0x20, 0x70,
   0xF0, 0x10, 0xF0, 0x80, 0xF0,  0xF0, 0x10, 0xF0, 0x10, 0xF0]

/-- Glyphs 4 to 7 of the default FONT (R28). -/
def glyphs4to7 : List Byte :=
  [0x90, 0x90, 0xF0, 0x10, 0x10,  0xF0, 0x80, 0xF0, 0x10, 0xF0,
   0xF0, 0x80, 0xF0, 0x90, 0xF0,  0xF0, 0x10, 0x20, 0x40, 0x40]

/-- Glyphs 8 to B of the default FONT (R28). -/
def glyphs8toB : List Byte :=
  [0xF0, 0x90, 0xF0, 0x90, 0xF0,  0xF0, 0x90, 0xF0, 0x10, 0xF0,
   0xF0, 0x90, 0xF0, 0x90, 0x90,  0xE0, 0x90, 0xE0, 0x90, 0xE0]

/-- Glyphs C to F of the default FONT (R28). -/
def glyphsCtoF : List Byte :=
  [0xF0, 0x80, 0x80, 0x80, 0xF0,  0xE0, 0x90, 0x90, 0x90, 0xE0,
   0xF0, 0x80, 0xF0, 0x80, 0xF0,  0xF0, 0x80, 0xF0, 0x80, 0x80]

/-- The default FONT (R28). PRESUMED: the spec takes the bytes from general knowledge (D10; log entry
2). -/
def defaultFont : Font :=
  ⟨(glyphs0to3 ++ glyphs4to7 ++ glyphs8toB ++ glyphsCtoF).toArray, rfl⟩

/-- The values this spec takes for the hardware: a stack of 16 entries and the default FONT (R5).
DESIGN CHOICE (the spec's own decisions D1 and D10; log entries 1 and 2). -/
def defaultParams : Params where
  depth := some 16
  font := defaultFont

end Sys2Proof.Machine
end

