-- ==== Sys2Proof/Machine/State.lean ====
section
/-! DEFINITION. The state of the machine as plain data (spec 10_state.md R20 to R34), the host's events
that have yet to happen (00_scope.md R10), the reasons a step can stop (60_exceptions.md R170), and the
state after reset (R32). -/

namespace Sys2Proof.Machine

/-- `MEM` (R27): the cells that differ from what `Reset` leaves, by strictly rising address. What an
unlisted address holds is `Memory.unlisted`; that the list has its canonical form is `Memory.wf`. -/
abbrev Memory := List Host.Cell

/-- `FB` (R26): 32 rows of 64 one-bit cells; the cell of column `x` and row `y` is bit `x` of row `y`. -/
abbrev Frame := Vector (BitVec 64) 32

/-- The whole architectural state, which is also what a snapshot holds (R34). -/
structure Arch where
  /-- `V[0]` to `V[15]`, the general registers; `V[15]` is VF (R20, R21). -/
  v : Vector Byte 16
  /-- `I`, the index register (R22). -/
  i : Word
  /-- `pc`, the program counter (R23). -/
  pc : Word
  /-- `stack[0]` to `stack[SP-1]`, the oldest return address first; `SP` is its length (R24). -/
  stack : List Word
  /-- `DT`, the delay timer (R25). -/
  dt : Byte
  /-- `ST`, the sound timer (R25). -/
  st : Byte
  /-- `FB`, the display buffer (R26). -/
  fb : Frame
  /-- `MEM`, the memory (R27). -/
  mem : Memory
  /-- `KEY[0]` to `KEY[15]`, true when pressed (R30). -/
  key : Vector Bool 16
  deriving DecidableEq, Repr

/-- The events that change or copy the state (R10, R186). Each is atomic; no two overlap. -/
inductive Event
  /-- `Reset` (R200). -/
  | reset
  /-- `Load(rom)` (R201). -/
  | load (rom : List Byte)
  /-- `Step`: one instruction; its random byte is the next free value (R80, R189). -/
  | cpu
  /-- `Tick`: the 60 Hz timer event (R183). -/
  | tick
  /-- `SetKey(k, b)` (R187). -/
  | setKey (k : Key) (pressed : Bool)
  /-- `Snapshot` (R190). -/
  | snapshot
  /-- `Restore(s)` (R190). -/
  | restore (a : Arch)
  deriving DecidableEq, Repr

/-- The state of the model: the architectural state and four fields of the model's own, which are no
state of the machine (log entries 1 to 4): its parameters, which nothing writes, and three that belong
to the environment. -/
structure State extends Arch where
  /-- The model's own: the open parameters STACK_DEPTH and FONT of this machine, arguments of the model
  (R5, R29; log entries 1 and 2). -/
  params : Params
  /-- The model's own: how many random bytes CXNN has drawn; the next is `Config.randByte draws`. -/
  draws : Nat
  /-- The model's own: the events the environment has already chosen, next first; where the list is
  empty the next event is a CPU step (R10, R194). -/
  schedule : List Event
  /-- The model's own: the values that earlier `Snapshot` events returned to the host (R190). -/
  taken : List Arch
  deriving DecidableEq, Repr

/-- The fatal faults (R170). A fault commits nothing: the state before the step stays the last
well-defined state (R176). -/
inductive Fault
  /-- Raised by every CPU step whose `pc` is 0x0FFF or more (R81, R171); safe: the spec's own fault. -/
  | outOfBoundsFetch (pc : Word)
  /-- Raised by 00EE on an empty stack (R110, R172); safe: the spec's own fault. -/
  | stackUnderflow (pc : Word)
  /-- Raised by 2NNN on a full stack (R112, R173), never where STACK_DEPTH is `unbounded`; safe: the spec's
  own fault. -/
  | stackOverflow (pc : Word)
  /-- Raised by `Load` of a ROM that does not fit (R175, R201); safe: the spec's own fault. -/
  | romTooLarge (len : Nat)
  deriving DecidableEq, Repr

/-- The reasons the model gives no next state where the spec names no fault. -/
inductive Refusal
  /-- An instruction without a meaning; raised by no arm of this model; safe. -/
  | notModelled (mnemonic : String)
  /-- Raised by `Restore` of a value that no earlier `Snapshot` returned, which is outside the contract
  (R190, decision D16: "a model refuses it"); safe. -/
  | foreignSnapshot
  deriving DecidableEq, Repr

/-- The outcome of a step or of an event. -/
abbrev Out := Host.Outcome State Fault Refusal

/-- The architectural state after `Reset` (R32, R200): `MEM` lists nothing, since an unlisted address
reads as what `Reset` leaves there. -/
def Arch.reset : Arch where
  v := Vector.replicate 16 0#8
  i := 0#16
  pc := Config.resetPc
  stack := []
  dt := 0#8
  st := 0#8
  fb := Vector.replicate 32 0#64
  mem := []
  key := Vector.replicate 16 false

/-- The machine of given parameters right after reset (R5, R32). The environment's three fields start
empty: no byte drawn, no event chosen, no snapshot taken (DESIGN CHOICE, log entries 3 and 4). -/
def State.resetOf (p : Params) : State where
  toArch := Arch.reset
  params := p
  draws := 0
  schedule := []
  taken := []

/-- The machine right after reset, with the parameter values this spec takes for the hardware (R5,
R32; log entries 1 and 2). -/
def State.reset : State := State.resetOf defaultParams

end Sys2Proof.Machine
end

