-- ==== Sys2Proof/Machine/Memory.lean ====
section
/-! DEFINITION. `MEM`: what `Reset` leaves in it, reading and writing one byte, the copy of a ROM, and the
canonical form of the list (spec 10_state.md R27, R28; 20_memory.md R40, R41; 00_scope.md R8). Each takes
the parameter FONT, which fixes what an unlisted address holds. -/

namespace Sys2Proof.Machine

/-- What an address that the list does not name holds: what `Reset` leaves there, FONT at 0x000 to
0x04F and zero above (R32, R41). -/
def Memory.unlisted (font : Font) (k : Nat) : Byte := if h : k < 80 then font[k] else 0#8

/-- The byte at key `k`. -/
def Memory.byteAt (font : Font) (k : Nat) : Memory → Byte
  | [] => Memory.unlisted font k
  | c :: rest => if c.1 = k then c.2 else Memory.byteAt font k rest

/-- `MemRead(a, 1)` (R8): no side effect. -/
def Memory.read (font : Font) (m : Memory) (a : Addr) : Byte := Memory.byteAt font a.toNat m

/-- The list without the key `k`. -/
def Memory.remove (k : Nat) (m : Memory) : Memory := m.filter fun c => c.1 != k

/-- The list with a cell put before the first greater key. -/
def Memory.place (k : Nat) (b : Byte) : Memory → Memory
  | [] => [(k, b)]
  | c :: rest => if k < c.1 then (k, b) :: c :: rest else c :: Memory.place k b rest

/-- `MemWrite(a, 1, b)` (R8). A byte equal to what an unlisted address holds is not listed, so that
equal memories are equal lists. -/
def Memory.write (font : Font) (m : Memory) (a : Addr) (b : Byte) : Memory :=
  if b = Memory.unlisted font a.toNat then Memory.remove a.toNat m
  else Memory.place a.toNat b (Memory.remove a.toNat m)

/-- Bytes written at consecutive addresses from `a` on: the loop of `Load` (R201). -/
def Memory.writeAll (font : Font) (m : Memory) (a : Nat) : List Byte → Memory
  | [] => m
  | b :: bs => Memory.writeAll font (m.write font (BitVec.ofNat 12 a) b) (a + 1) bs

/-- The canonical form from key `lo` on: keys strictly rising and below 4096, and no cell equal to
what an unlisted address holds. -/
def Memory.wfFrom (font : Font) (lo : Nat) : Memory → Bool
  | [] => true
  | c :: rest =>
    decide (lo ≤ c.1) && decide (c.1 < Config.memSize) && (c.2 != Memory.unlisted font c.1)
      && Memory.wfFrom font (c.1 + 1) rest

/-- The list has its canonical form. -/
def Memory.wf (font : Font) (m : Memory) : Bool := Memory.wfFrom font 0 m

end Sys2Proof.Machine
end

