-- ==== Sys2Proof/Machine/Ops.lean ====
section
/-! DEFINITION. The named operations over registers, program counter, stack, framebuffer, keys and
fetch, and raising a fault, on which every meaning is built (spec 00_scope.md R8, 10_state.md R20 to
R30, 40_step.md R80 to R82, 60_exceptions.md R176, R177). -/

namespace Sys2Proof.Machine

/-! ### Writing one field -/

/-- `I <- w`. -/
def State.setI (s : State) (w : Word) : State := { s with i := w }

/-- `pc <- w`. -/
def State.setPc (s : State) (w : Word) : State := { s with pc := w }

/-- The stack replaced. -/
def State.setStack (s : State) (l : List Word) : State := { s with stack := l }

/-- `DT <- b`. -/
def State.setDt (s : State) (b : Byte) : State := { s with dt := b }

/-- `ST <- b`. -/
def State.setSt (s : State) (b : Byte) : State := { s with st := b }

/-- The framebuffer replaced. -/
def State.setFb (s : State) (f : Frame) : State := { s with fb := f }

/-- The memory replaced. -/
def State.setMem (s : State) (m : Memory) : State := { s with mem := m }

/-- `KEY[k] <- b` (R187). -/
def State.setKey (s : State) (k : Key) (b : Bool) : State := { s with key := s.key.set k.val b }

/-- The count of drawn bytes replaced. -/
def State.setDraws (s : State) (n : Nat) : State := { s with draws := n }

/-- The chosen events replaced. -/
def State.setSchedule (s : State) (l : List Event) : State := { s with schedule := l }

/-- The snapshots in the host's hands replaced. -/
def State.setTaken (s : State) (l : List Arch) : State := { s with taken := l }

/-- The whole architectural state replaced. -/
def State.setArch (s : State) (a : Arch) : State := { s with toArch := a }

/-! ### General registers and keys -/

/-- `V[x]` (R20): no register is hardwired. -/
def State.reg (s : State) (x : Reg) : Byte := s.v[x.val]

/-- `V[x] <- b` (R20). -/
def State.setReg (s : State) (x : Reg) (b : Byte) : State := { s with v := s.v.set x.val b }

/-- `KEY[k]` (R30). -/
def State.pressed (s : State) (k : Key) : Bool := s.key[k.val]

/-! ### Program counter -/

/-- `npc = pc + 2`, modulo 65536 (R82, decision D15). -/
def State.npc (s : State) : Word := s.pc + 2#16

/-- `pc <- npc`: the default advance (R82). -/
def State.advance (s : State) : State := s.setPc s.npc

/-- `pc <- npc + 2` where the condition holds, else `pc <- npc` (43_skip.md). -/
def State.skipIf (s : State) (c : Bool) : State :=
  if c then s.setPc (s.npc + 2#16) else s.advance

/-! ### Faults -/

/-- `raise <Fault>(info)` (R8): the step ends with the fault and commits nothing (R176). There is no
trap entry, no handler, no saved state and no return from one (R177, R181): the fault is the outcome,
handed to the host. -/
def raise (f : Fault) : Out := .fault f

/-! ### Stack -/

/-- A stack of `n` entries is full for the given depth; `none` is `unbounded` and never full (R24). -/
def stackFull (depth : Option Nat) (n : Nat) : Bool :=
  match depth with
  | none => false
  | some d => decide (d ≤ n)

/-- `SP`, the number of entries (R24). -/
def State.sp (s : State) : Nat := s.stack.length

/-- A call finds the stack full: `SP == STACK_DEPTH` (R112, R173; log entry 1). -/
def State.full (s : State) : Bool := stackFull s.params.depth s.sp

/-- `stack[SP] <- w; SP <- SP + 1`, the effect of `Push(w)` on a stack that is not full (R24). -/
def State.push (s : State) (w : Word) : State := s.setStack (s.stack ++ [w])

/-- `stack[SP - 1]`, the entry that `Pop()` returns; nothing on an empty stack (R24). -/
def State.top (s : State) : Option Word := s.stack.getLast?

/-- `SP <- SP - 1`, the effect of `Pop()` on the stack (R24). -/
def State.drop (s : State) : State := s.setStack s.stack.dropLast

/-! ### Memory -/

/-- `MemRead(a, 1)` on the state (R8). -/
def State.read (s : State) (a : Addr) : Byte := s.mem.read s.params.font a

/-- `MemWrite(a, 1, b)` on the state (R8). -/
def State.write (s : State) (a : Addr) (b : Byte) : State :=
  s.setMem (s.mem.write s.params.font a b)

/-- The memory list has its canonical form, for the FONT of this machine. -/
def State.memWf (s : State) : Bool := s.mem.wf s.params.font

/-! ### Framebuffer -/

/-- `FB[y][x]` (R8, R26). -/
def Frame.cell (f : Frame) (x : Fin 64) (y : Fin 32) : Bool := f[y.val].getLsbD x.val

/-- `FB[y][x] <- FB[y][x] XOR 1` (R101). -/
def Frame.flip (f : Frame) (x : Fin 64) (y : Fin 32) : Frame :=
  f.set y.val (f[y.val] ^^^ BitVec.twoPow 64 x.val)

/-- Every cell 0 (R100). -/
def Frame.blank : Frame := Vector.replicate 32 0#64

/-! ### Fetch -/

/-- A program counter whose two instruction bytes both exist: `pc + 1 < 4096`, on the unreduced value
(R46, R81). -/
def fetchable (pc : Word) : Bool := decide (pc.toNat + 1 < Config.memSize)

/-- The address of the byte at `pc + k` of the instruction (R42). -/
def fetchAddr (pc : Word) (k : Nat) : Addr := BitVec.ofNat 12 (pc.toNat + k)

/-- The two bytes at `pc` and `pc + 1`, lower address first, whatever the parity of `pc`
(R42, R44). -/
def State.fetchBytes (s : State) : List Byte :=
  [s.read (fetchAddr s.pc 0), s.read (fetchAddr s.pc 1)]

/-- The instruction word at `pc` (R80 part 1), or nothing where the fetch is out of bounds. -/
def State.fetch (s : State) : Option Word :=
  if fetchable s.pc then
    some (wordOfBytes (s.read (fetchAddr s.pc 0)) (s.read (fetchAddr s.pc 1)))
  else none

/-- The word stored at `pc`, high byte first (R42, R71). -/
def State.placeWord (s : State) (op : Word) : State :=
  (s.write (fetchAddr s.pc 0) (highByte op)).write (fetchAddr s.pc 1) (lowByte op)

end Sys2Proof.Machine
end

