-- ==== Sys2Proof/Machine/Operands.lean ====
section
/-! DEFINITION. The operand forms (spec 20_memory.md R45, 40_step.md R88): the I-relative effective
address and the accesses through it, the glyph address, the decimal digits, the key index, the scan of
the keys, the jump target, and the bits of a sprite. -/

namespace Sys2Proof.Machine

/-- `EA(k) = (I + k) mod 4096` (R45): the one addressing mode. -/
def State.ea (s : State) (k : Nat) : Addr := BitVec.ofNat 12 (s.i.toNat + k)

/-- `MemRead(EA(k), 1)` (R8). -/
def State.load (s : State) (k : Nat) : Byte := s.read (s.ea k)

/-- `MemWrite(EA(k), 1, b)` (R8). -/
def State.store (s : State) (k : Nat) (b : Byte) : State := s.write (s.ea k) b

/-- The register of loop index `k` in FX55 and FX65, where `k` is 0 to `x` (R154, R155). -/
def loopReg (k : Nat) : Reg := Fin.ofNat 16 k

/-- `V[k]` stored at `EA(k)` for `k` below `n` (R154: `n` is x + 1). -/
def State.storeRegs (s : State) (n : Nat) : State :=
  (List.range n).foldl (fun t k => t.store k (t.reg (loopReg k))) s

/-- `V[k]` loaded from `EA(k)` for `k` below `n` (R155: `n` is x + 1). -/
def State.loadRegs (s : State) (n : Nat) : State :=
  (List.range n).foldl (fun t k => t.setReg (loopReg k) (t.load k)) s

/-- An immediate address as a 16-bit value (R63, R111, R150). -/
def zextAddr (nnn : Nat) : Word := BitVec.ofNat 16 nnn

/-- `V[0] + nnn`, a 16-bit sum that is not reduced to 12 bits (R113, decision D23). -/
def jumpOffset (b : Byte) (nnn : Nat) : Word := BitVec.ofNat 16 (b.toNat + nnn)

/-- `(I + V[x]) mod 4096` (R151). -/
def indexSum (i : Word) (b : Byte) : Word := BitVec.ofNat 16 ((i.toNat + b.toNat) % 4096)

/-- `V[x] * 5`, the address of a glyph, with no mask of `V[x]` (R152). -/
def glyphAddr (b : Byte) : Word := BitVec.ofNat 16 (b.toNat * 5)

/-- The hundreds digit, `v // 100` (R153). -/
def hundreds (b : Byte) : Byte := BitVec.ofNat 8 (b.toNat / 100)

/-- The tens digit, `(v mod 100) // 10` (R153). -/
def tens (b : Byte) : Byte := BitVec.ofNat 8 (b.toNat % 100 / 10)

/-- The ones digit, `v mod 10` (R153). -/
def ones (b : Byte) : Byte := BitVec.ofNat 8 (b.toNat % 10)

/-- The key EX9E and EXA1 test: `V[x] AND 0x7` (R160). -/
def testedKey (b : Byte) : Key := Fin.ofNat 16 (b.toNat % 8)

/-- The key codes in rising order. -/
def keyCodes : List Key := [0, 1, 2, 3, 4, 5, 6, 7, 8, 9, 10, 11, 12, 13, 14, 15]

/-- The least pressed key, if any is pressed (R162). -/
def State.lowestKey (s : State) : Option Key := keyCodes.find? fun k => s.pressed k

/-- The bit of a sprite byte for column offset `c`: bit 7 is the leftmost pixel (R101, decision D4). -/
def spriteBit (row : Byte) (c : Nat) : Bool := row.getLsbD (7 - c)

/-- The display column of offset `c`: `(V[x] + c) mod 64` (R101). -/
def pixelX (a : Byte) (c : Nat) : Fin 64 := Fin.ofNat 64 (a.toNat + c)

/-- The display row of sprite row `r`: `(V[y] + r) mod 32` (R101). -/
def pixelY (b : Byte) (r : Nat) : Fin 32 := Fin.ofNat 32 (b.toNat + r)

/-- The display during a draw: the cells and whether a set cell has been turned off (R101). -/
structure Canvas where
  fb : Frame
  collision : Bool
  deriving DecidableEq, Repr

/-- One sprite bit that is 1: note a collision with a set cell, then flip the cell (R101). -/
def Canvas.hit (c : Canvas) (x : Fin 64) (y : Fin 32) : Canvas where
  fb := c.fb.flip x y
  collision := c.collision || c.fb.cell x y

/-- The inner loop of DXYN: the eight bits of one sprite row (R101). -/
def Canvas.drawRow (cv : Canvas) (a b : Byte) (r : Nat) (row : Byte) : Canvas :=
  (List.range 8).foldl
    (fun cv c => if spriteBit row c then cv.hit (pixelX a c) (pixelY b r) else cv) cv

/-- The outer loop of DXYN: `n` sprite rows read from `EA(0)` on (R101). -/
def State.drawSprite (s : State) (a b : Byte) (n : Nat) : Canvas :=
  (List.range n).foldl (fun cv r => cv.drawRow a b r (s.load r)) ⟨s.fb, false⟩

end Sys2Proof.Machine
end

