-- ==== Sys2Proof/Machine/Alu.lean ====
section
/-! DEFINITION. The meanings of register load and arithmetic (spec 44_alu.md). Operands are the values
at the start of the step, and where two writes go to one register the later one stands (40_step.md
R87, decision D3; log entry 5). -/

namespace Sys2Proof.Machine

/-- 6XNN (R130). -/
def execLdImm (x : Reg) (nn : Byte) (s : State) : Out := .next (s.setReg x nn).advance

/-- 7XNN (R131): no flag side effect. -/
def execAddImm (x : Reg) (nn : Byte) (s : State) : Out :=
  .next (s.setReg x (addBytes (s.reg x) nn)).advance

/-- 8XY0 (R132). -/
def execLdReg (x y : Reg) (s : State) : Out := .next (s.setReg x (s.reg y)).advance

/-- 8XY1 (R133): VF is left unchanged. -/
def execOrReg (x y : Reg) (s : State) : Out := .next (s.setReg x (s.reg x ||| s.reg y)).advance

/-- 8XY2 (R134): VF is left unchanged. -/
def execAndReg (x y : Reg) (s : State) : Out := .next (s.setReg x (s.reg x &&& s.reg y)).advance

/-- 8XY3 (R135): VF is left unchanged. -/
def execXorReg (x y : Reg) (s : State) : Out := .next (s.setReg x (s.reg x ^^^ s.reg y)).advance

/-- 8XY4 (R136): `V[x]` is written first, then VF. -/
def execAddReg (x y : Reg) (s : State) : Out :=
  let a := s.reg x
  let b := s.reg y
  .next ((s.setReg x (addBytes a b)).setReg vf (flagByte (carryOut a b))).advance

/-- 8XY5 (R137): VF is written first, then `V[x]`. -/
def execSub (x y : Reg) (s : State) : Out :=
  let a := s.reg x
  let b := s.reg y
  .next ((s.setReg vf (flagByte (noBorrow a b))).setReg x (subBytes a b)).advance

/-- 8XY6 (R138): VF is written first, then `V[x]`; `V[y]` is neither read nor written (R67). -/
def execShr (x _y : Reg) (s : State) : Out :=
  let a := s.reg x
  .next ((s.setReg vf (flagByte (shrOut a))).setReg x (shrByte a)).advance

/-- 8XY7 (R139): VF is written first, then `V[x]`. -/
def execSubn (x y : Reg) (s : State) : Out :=
  let a := s.reg x
  let b := s.reg y
  .next ((s.setReg vf (flagByte (noBorrow b a))).setReg x (subBytes b a)).advance

/-- 8XYE (R140): VF is written first, then `V[x]`; `V[y]` is neither read nor written (R67). -/
def execShl (x _y : Reg) (s : State) : Out :=
  let a := s.reg x
  .next ((s.setReg vf (flagByte (shlOut a))).setReg x (shlByte a)).advance

/-- CXNN with the random byte given: `V[x] <- rand AND nn` (R141). -/
def rndWith (r : Byte) (x : Reg) (nn : Byte) (s : State) : State := (s.setReg x (r &&& nn)).advance

/-- CXNN (R141): the random byte is the next free value, and the count of drawn bytes goes up by one,
so that two executions are independent draws (R189; log entry 3). -/
def execRnd (x : Reg) (nn : Byte) (s : State) : Out :=
  .next ((rndWith (Config.randByte s.draws) x nn s).setDraws (s.draws + 1))

end Sys2Proof.Machine
end

