-- ==== Sys2Proof/Machine/Display.lean ====
section
/-! DEFINITION. The meanings of the display instructions (spec 41_display.md). -/

namespace Sys2Proof.Machine

/-- 00E0 (R100): every cell 0; VF is not written. -/
def execCls (s : State) : Out := .next (s.setFb Frame.blank).advance

/-- DXYN (R101): the coordinates are read first, VF is written once, after the last pixel, also when
`n` is 0. -/
def execDrw (x y : Reg) (n : Nat) (s : State) : Out :=
  let cv := s.drawSprite (s.reg x) (s.reg y) n
  .next ((s.setFb cv.fb).setReg vf (flagByte cv.collision)).advance

end Sys2Proof.Machine
end

