-- ==== Sys2Proof/Machine/Flow.lean ====
section
/-! DEFINITION. The meanings of the control transfers (spec 42_flow.md). Targets are taken as they
stand: no target is checked for evenness or range. -/

namespace Sys2Proof.Machine

/-- 00EE (R110): the popped entry replaces the default advance; `StackUnderflow` on an empty stack. -/
def execRet (s : State) : Out :=
  match s.top with
  | none => raise (.stackUnderflow s.pc)
  | some w => .next (s.drop.setPc w)

/-- 1NNN (R111). -/
def execJp (nnn : Nat) (s : State) : Out := .next (s.setPc (zextAddr nnn))

/-- 2NNN (R112): pushes the address of the next instruction; `StackOverflow` on a full stack. -/
def execCall (nnn : Nat) (s : State) : Out :=
  if s.full then raise (.stackOverflow s.pc)
  else .next ((s.push s.npc).setPc (zextAddr nnn))

/-- BNNN (R113): `V[0] + nnn`, not reduced to 12 bits. -/
def execJpV0 (nnn : Nat) (s : State) : Out := .next (s.setPc (jumpOffset (s.reg v0) nnn))

end Sys2Proof.Machine
end

