-- ==== Sys2Proof/Machine/Index.lean ====
section
/-! DEFINITION. The meanings of the index register and memory transfers (spec 45_index_memory.md). -/

namespace Sys2Proof.Machine

/-- ANNN (R150). -/
def execLdI (nnn : Nat) (s : State) : Out := .next (s.setI (zextAddr nnn)).advance

/-- FX1E (R151): modulo 4096; VF is unchanged. -/
def execAddI (x : Reg) (s : State) : Out := .next (s.setI (indexSum s.i (s.reg x))).advance

/-- FX29 (R152). -/
def execLdF (x : Reg) (s : State) : Out := .next (s.setI (glyphAddr (s.reg x))).advance

/-- FX33 (R153): hundreds, tens and ones at `EA(0)`, `EA(1)` and `EA(2)`. -/
def execLdB (x : Reg) (s : State) : Out :=
  let v := s.reg x
  .next (((s.store 0 (hundreds v)).store 1 (tens v)).store 2 (ones v)).advance

/-- FX55 (R154, decision D9): registers to memory; `I` is unchanged. -/
def execLdMemVx (x : Reg) (s : State) : Out := .next (s.storeRegs (x.val + 1)).advance

/-- FX65 (R155, decision D9): memory to registers; `I` is unchanged. -/
def execLdVxMem (x : Reg) (s : State) : Out := .next (s.loadRegs (x.val + 1)).advance

end Sys2Proof.Machine
end

