-- ==== Sys2Proof/Machine/KeysTimers.lean ====
section
/-! DEFINITION. The meanings of the key and timer instructions (spec 46_keys_timers.md). -/

namespace Sys2Proof.Machine

/-- EX9E (R160): the key index is `V[x]` masked to 3 bits. -/
def execSkp (x : Reg) (s : State) : Out := .next (s.skipIf (s.pressed (testedKey (s.reg x))))

/-- EXA1 (R161): the same 3-bit mask. -/
def execSknp (x : Reg) (s : State) : Out := .next (s.skipIf (!s.pressed (testedKey (s.reg x))))

/-- FX07 (R163). -/
def execLdVxDt (x : Reg) (s : State) : Out := .next (s.setReg x s.dt).advance

/-- FX0A (R162): the least pressed key, or `pc <- npc - 2` so that the instruction runs again. -/
def execLdVxK (x : Reg) (s : State) : Out :=
  match s.lowestKey with
  | some k => .next (s.setReg x (BitVec.ofNat 8 k.val)).advance
  | none => .next (s.setPc (s.npc - 2#16))

/-- FX15 (R164). -/
def execLdDtVx (x : Reg) (s : State) : Out := .next (s.setDt (s.reg x)).advance

/-- FX18 (R165). -/
def execLdStVx (x : Reg) (s : State) : Out := .next (s.setSt (s.reg x)).advance

end Sys2Proof.Machine
end

