-- ==== Sys2Proof/Machine/Skip.lean ====
section
/-! DEFINITION. The meanings of the conditional skips on registers (spec 43_skip.md). -/

namespace Sys2Proof.Machine

/-- 3XNN (R120). -/
def execSeImm (x : Reg) (nn : Byte) (s : State) : Out := .next (s.skipIf (s.reg x == nn))

/-- 4XNN (R121). -/
def execSneImm (x : Reg) (nn : Byte) (s : State) : Out := .next (s.skipIf (s.reg x != nn))

/-- 5XY0 (R122). -/
def execSeReg (x y : Reg) (s : State) : Out := .next (s.skipIf (s.reg x == s.reg y))

/-- 9XY0 (R123). -/
def execSneReg (x y : Reg) (s : State) : Out := .next (s.skipIf (s.reg x != s.reg y))

end Sys2Proof.Machine
end

