-- ==== Sys2Proof/Machine/Cycle.lean ====
section
/-! DEFINITION. The CPU step (spec 40_step.md R80): fetch, decode, dispatch, and the unmatched opcode with
its report (R85). -/

namespace Sys2Proof.Machine

/-- The report `UnknownOpcode(op, a)` of a step (R85, decision D20): an output, not state. -/
structure Report where
  /-- The word that matched no row. -/
  op : Word
  /-- The address the word was fetched from. -/
  address : Word
  deriving DecidableEq, Repr

/-- An unmatched opcode: `pc <- npc`, and nothing else changes (R85). -/
def skipUnmatched (s : State) : Out := .next s.advance

/-- `Step` (R80): the fault at fetch comes first (R180); the word read selects one instruction or
none. -/
def cpuStep (s : State) : Out :=
  match s.fetch with
  | none => raise (.outOfBoundsFetch s.pc)
  | some op =>
    match decodeWord op with
    | some i => exec i s
    | none => skipUnmatched s

/-- The report the CPU step from `s` carries, if any (R85). -/
def cpuReport (s : State) : Option Report :=
  match s.fetch with
  | none => none
  | some op =>
    match decodeWord op with
    | some _ => none
    | none => some ⟨op, s.pc⟩

end Sys2Proof.Machine
end

