-- ==== Sys2Proof/Machine/Events.lean ====
section
/-! DEFINITION. The events of the host and of the timer (spec 00_scope.md R10; 60_exceptions.md R183 to
R190; 70_reset_and_hazards.md R200, R201), the outputs the host may observe (R185, R186, R188) and the
numbers of the cause port (R170, decision D14). -/

namespace Sys2Proof.Machine

/-- One timer decremented, floor at zero (R183). -/
def countDown (t : Byte) : Byte := BitVec.ofNat 8 (t.toNat - 1)

/-- `Tick` (R183): both timers, independently, and nothing else. -/
def State.tick (s : State) : State := (s.setDt (countDown s.dt)).setSt (countDown s.st)

/-- A ROM of `len` bytes fits: `0x200 + len <= 4096` (R201). -/
def romFits (len : Nat) : Bool := decide (Config.romBase + len ≤ Config.memSize)

/-- `Load(rom)` (R201): the check first, then exactly `len(rom)` bytes from 0x200 on. -/
def loadRom (rom : List Byte) (s : State) : Out :=
  if romFits rom.length then .next (s.setMem (s.mem.writeAll s.params.font Config.romBase rom))
  else raise (.romTooLarge rom.length)

/-- `Reset` (R200): every piece of architectural state at its reset value. The parameters are fixed
(R29), and the events still to come,
the snapshots in the host's hands and the count of drawn bytes are the environment's (log entry 4). -/
def State.reboot (s : State) : State := s.setArch Arch.reset

/-- `Snapshot` (R190): the copy goes to the host; the machine's state does not change. -/
def State.snapshot (s : State) : State := s.setTaken (s.taken ++ [s.toArch])

/-- `Restore(a)` (R190): all of the architectural state at once; only a value that an earlier
`Snapshot` returned is within the contract (decision D16; log entry 4). -/
def restoreArch (a : Arch) (s : State) : Out :=
  if a ∈ s.taken then .next (s.setArch a) else .refused .foreignSnapshot

/-- The effect of one event (R10). -/
def deliver (e : Event) (s : State) : Out :=
  match e with
  | .reset => .next s.reboot
  | .load rom => loadRom rom s
  | .cpu => cpuStep s
  | .tick => .next s.tick
  | .setKey k b => .next (s.setKey k b)
  | .snapshot => .next s.snapshot
  | .restore a => restoreArch a s

/-- The next event: the first one the environment has chosen, else a CPU step (R10, R194; log entry
4). -/
def nextEvent (s : State) : Event := s.schedule.headD .cpu

/-- One event: it is taken off the schedule and delivered (R10). -/
def stepEvent (s : State) : Out := deliver (nextEvent s) (s.setSchedule s.schedule.tail)

/-- The report that the next event carries (R85, R186): only a CPU step has one. -/
def nextReport (s : State) : Option Report :=
  match nextEvent s with
  | .cpu => cpuReport s
  | _ => none

/-- The output `tone` (R185). -/
def State.tone (s : State) : Bool := decide (0 < s.st.toNat)

/-- The output `fb` (R188): the cells of the display, read-only. -/
def State.fbOut (s : State) (x : Fin 64) (y : Fin 32) : Bool := Frame.cell s.fb x y

/-- The number of a fault on the cause port (R170, decision D14). -/
def Fault.cause : Fault → Nat
  | .outOfBoundsFetch _ => 1
  | .stackUnderflow _ => 2
  | .stackOverflow _ => 3
  | .romTooLarge _ => 5

/-- The number of the report on the cause port (R170, decision D14). -/
def Report.cause : Report → Nat
  | _ => 4

/-- The cause port with the next event: 0 where it neither faults nor reports (R170, decision D14). -/
def nextCause (s : State) : Nat :=
  match stepEvent s with
  | .fault f => f.cause
  | .refused _ => 0
  | .next _ =>
    match nextReport s with
    | some r => r.cause
    | none => 0

/-- The instruction word placed where the next step fetches it: the two bytes at `pc`, or at the entry
point where `pc` is outside memory, with no chosen event before it (log entry 8). -/
def State.placeNext (s : State) (op : Word) : State :=
  ((if fetchable s.pc then s else s.setPc Config.resetPc).placeWord op).setSchedule []

end Sys2Proof.Machine
end

