-- ==== Sys2Proof/Machine/Step.lean ====
section
/-! DEFINITION. One step of the machine, one atomic event (spec 00_scope.md R10), and the placing of an
instruction where the next step fetches it. -/

namespace Sys2Proof.Machine

/-- One atomic event: the next one the environment has chosen, else `Step` (R10, R80, R194). -/
def step : State → Host.Outcome State Fault Refusal := fun s => stepEvent s

/-- `s` with the instruction of the table's bits `w` stored where the next step fetches it (log entry
8). -/
def State.withFetchWord (s : State) (nbits w : Nat) : State := s.placeNext (tableWord nbits w)

end Sys2Proof.Machine
end

