-- ==== Sys2Proof/Safety.lean ====
section
/-! DEFINITION. The terms in which claims about the machine are stated: the state or the reason an outcome
holds, the invariant of reachable states (spec 10_state.md R33), what an instruction changes, runs of
events and of instructions, and safe runs. -/

namespace Sys2Proof.Machine

/-! ### Outcomes -/

/-- The next state of an outcome, if it has one. -/
def nextState : Out → Option State
  | .next s => some s
  | .fault _ => none
  | .refused _ => none

/-- The fault of an outcome, if it is one. -/
def faultOf : Out → Option Fault
  | .next _ => none
  | .fault f => some f
  | .refused _ => none

/-- An outcome with its next state passed on to a further computation. -/
def andThen (o : Out) (f : State → Out) : Out :=
  match o with
  | .next s => f s
  | .fault r => .fault r
  | .refused r => .refused r

/-! ### The invariant of reachable states -/

/-- `SP` is at most STACK_DEPTH; always so for an unbounded stack (R24, R33). -/
def stackFits (depth : Option Nat) (n : Nat) : Prop :=
  match depth with
  | none => True
  | some d => n ≤ d

/-- What R33 says of every reachable state of the machine with the given parameters, and that the
memory list has its canonical form. -/
structure Arch.Inv (p : Params) (a : Arch) : Prop where
  /-- `I <= 0x0FFF`. -/
  index : a.i.toNat ≤ 0x0FFF
  /-- `pc <= 0x10FE`. -/
  counter : a.pc.toNat ≤ 0x10FE
  /-- Every stack entry `e` satisfies `2 <= e <= 0x1000`. -/
  entries : ∀ e ∈ a.stack, 2 ≤ e.toNat ∧ e.toNat ≤ 0x1000
  /-- `SP <= STACK_DEPTH`. -/
  depth : stackFits p.depth a.stack.length
  /-- The memory list has its canonical form. -/
  memory : a.mem.wf p.font = true

/-- The invariant of the whole state: the parameters are admitted (R5), and it holds of the
architectural state and of every snapshot the host holds, so that a `Restore` keeps it (R33, R190). -/
structure State.Inv (s : State) : Prop where
  params : s.params.wf = true
  arch : s.toArch.Inv s.params
  taken : ∀ a ∈ s.taken, a.Inv s.params

/-! ### What an instruction changes -/

/-- A piece of state, beside the general registers and `pc`, that some instruction changes. -/
inductive Part
  | index | stack | delay | sound | display | memory | draws
  deriving DecidableEq, Repr

/-- The frame of an instruction: from `s` to `t` nothing changes but the general registers `ds`, the
parts `ps`, and `pc`. The keys, the chosen events, the snapshots and the parameters never change. Memory is compared
byte by byte, the display cell by cell. -/
structure OnlyChanges (ds : List Reg) (ps : List Part) (s t : State) : Prop where
  regs : ∀ r, r ∉ ds → t.reg r = s.reg r
  index : Part.index ∉ ps → t.i = s.i
  stack : Part.stack ∉ ps → t.stack = s.stack
  delay : Part.delay ∉ ps → t.dt = s.dt
  sound : Part.sound ∉ ps → t.st = s.st
  display : Part.display ∉ ps → ∀ x y, t.fb.cell x y = s.fb.cell x y
  memory : Part.memory ∉ ps → ∀ a, t.read a = s.read a
  keys : ∀ k, t.pressed k = s.pressed k
  draws : Part.draws ∉ ps → t.draws = s.draws
  schedule : t.schedule = s.schedule
  taken : t.taken = s.taken
  params : t.params = s.params

/-- `pc` has advanced by `n`, modulo 65536 (R82, R23). -/
def Advanced (n : Nat) (s t : State) : Prop := t.pc.toNat = (s.pc.toNat + n) % 65536

/-- The flag VF holds 1 where the condition holds, else 0 (R21). -/
def FlagIs (c : Prop) (t : State) : Prop := (c → t.reg vf = 1#8) ∧ (¬c → t.reg vf = 0#8)

/-- Every cell of the display is 0. -/
def State.displayClear (s : State) : Prop := ∀ x y, s.fb.cell x y = false

/-- A sprite of `n` rows at start coordinates `a`, `b` has a 1 bit on the cell of column `px` and row
`py`: the cell lies at column offset `(px - a) mod 64 < 8` and row offset `(py - b) mod 32 < n`, and
that bit of that row's byte, bit 7 being leftmost, is 1 (R101). -/
def State.spriteCovers (s : State) (a b : Byte) (n : Nat) (px : Fin 64) (py : Fin 32) : Prop :=
  ∃ c r : Nat, c < 8 ∧ r < n ∧ (a.toNat + c) % 64 = px.val ∧ (b.toNat + r) % 32 = py.val ∧
    (s.read (BitVec.ofNat 12 (s.i.toNat + r))).getLsbD (7 - c) = true

/-! ### Runs -/

/-- The instructions of a list executed one after another. -/
def execAll : List Instr → State → Out
  | [], s => .next s
  | i :: is, s => andThen (exec i s) (execAll is)

/-- A run of `n` events from `s` ends in `t`, with no fault and no refusal on the way. -/
def RunsTo (n : Nat) (s t : State) : Prop := Host.Core.run core n s = Host.Outcome.next t

/-- A safe run: `n` events from `s` complete with no fault and no refusal. -/
def SafeRun (n : Nat) (s : State) : Prop := ∃ t, RunsTo n s t

/-- An event that completes from every state: all but a `Step`, a `Restore`, and the load of a ROM
that does not fit (R170, R201). -/
def alwaysCompletes : Event → Bool
  | .reset | .tick | .setKey _ _ | .snapshot => true
  | .load rom => romFits rom.length
  | .cpu | .restore _ => false

/-- The instruction is DXYN. -/
def isDraw : Instr → Bool
  | .drw _ _ _ => true
  | _ => false

end Sys2Proof.Machine
end

