-- ==== Sys2Proof/Certificates/Slice0/Obligations.lean ====
section
/-! DEFINITION. The statements for the provers, from the numbered rules of the spec. An instruction is run
by `exec` on the state at the start of its step; an event is run by `step`. `OnlyChanges ds ps s t` is
the frame: beside `pc` nothing but the registers `ds` and the parts `ps` differs. -/

open Sys2Proof Sys2Proof.Machine

/-! ### Encoding -/

/-- Words written out from the patterns of R64 decode to the instructions they stand for. That 0x5121
and 0x01E0 are no instructions is the spec's decisions D8 and D7, a choice (log entry 9). -/
def Obligations.SpecWordsDecodeToTheirInstructions : Prop :=
  decode [0x00, 0xE0] = .ok .cls [] ∧ decode [0x00, 0xEE] = .ok .ret [] ∧
  decode [0x1A, 0xBC] = .ok (.jp 0xABC) [] ∧ decode [0x33, 0x2A] = .ok (.seImm 3 0x2A) [] ∧
  decode [0x80, 0x14] = .ok (.addReg 0 1) [] ∧ decode [0x81, 0x26] = .ok (.shr 1 2) [] ∧
  decode [0xD1, 0x2A] = .ok (.drw 1 2 10) [] ∧ decode [0xE0, 0x9E] = .ok (.skp 0) [] ∧
  decode [0xF2, 0x55] = .ok (.ldMemVx 2) [] ∧
  decode [0x51, 0x21] = .rejected (.unknownOpcode 0x5121) ∧
  decode [0x01, 0xE0] = .rejected (.unknownOpcode 0x01E0) ∧ decode [0x60] = .rejected .truncated

/-- The map of R64: a word that agrees with a row's match value under the row's mask is that row's
instruction, with the operand fields of R61 (`x = (op >> 8) & 0xF`, `y = (op >> 4) & 0xF`,
`n = op & 0xF`, `nn = op & 0xFF`, `nnn = op & 0xFFF`). -/
def Obligations.EveryPatternSelectsItsInstruction : Prop :=
  ∀ op : Word,
    let x : Reg := Fin.ofNat 16 (op.toNat / 256)
    let y : Reg := Fin.ofNat 16 (op.toNat / 16)
    let n : Nat := op.toNat % 16
    let nn : Byte := BitVec.ofNat 8 op.toNat
    let nnn : Nat := op.toNat % 4096
    (op &&& 0xFFFF#16 = 0x00E0#16 → decodeWord op = some .cls) ∧
    (op &&& 0xFFFF#16 = 0x00EE#16 → decodeWord op = some .ret) ∧
    (op &&& 0xF000#16 = 0x1000#16 → decodeWord op = some (.jp nnn)) ∧
    (op &&& 0xF000#16 = 0x2000#16 → decodeWord op = some (.call nnn)) ∧
    (op &&& 0xF000#16 = 0x3000#16 → decodeWord op = some (.seImm x nn)) ∧
    (op &&& 0xF000#16 = 0x4000#16 → decodeWord op = some (.sneImm x nn)) ∧
    (op &&& 0xF00F#16 = 0x5000#16 → decodeWord op = some (.seReg x y)) ∧
    (op &&& 0xF000#16 = 0x6000#16 → decodeWord op = some (.ldImm x nn)) ∧
    (op &&& 0xF000#16 = 0x7000#16 → decodeWord op = some (.addImm x nn)) ∧
    (op &&& 0xF00F#16 = 0x8000#16 → decodeWord op = some (.ldReg x y)) ∧
    (op &&& 0xF00F#16 = 0x8001#16 → decodeWord op = some (.orReg x y)) ∧
    (op &&& 0xF00F#16 = 0x8002#16 → decodeWord op = some (.andReg x y)) ∧
    (op &&& 0xF00F#16 = 0x8003#16 → decodeWord op = some (.xorReg x y)) ∧
    (op &&& 0xF00F#16 = 0x8004#16 → decodeWord op = some (.addReg x y)) ∧
    (op &&& 0xF00F#16 = 0x8005#16 → decodeWord op = some (.sub x y)) ∧
    (op &&& 0xF00F#16 = 0x8006#16 → decodeWord op = some (.shr x y)) ∧
    (op &&& 0xF00F#16 = 0x8007#16 → decodeWord op = some (.subn x y)) ∧
    (op &&& 0xF00F#16 = 0x800E#16 → decodeWord op = some (.shl x y)) ∧
    (op &&& 0xF00F#16 = 0x9000#16 → decodeWord op = some (.sneReg x y)) ∧
    (op &&& 0xF000#16 = 0xA000#16 → decodeWord op = some (.ldI nnn)) ∧
    (op &&& 0xF000#16 = 0xB000#16 → decodeWord op = some (.jpV0 nnn)) ∧
    (op &&& 0xF000#16 = 0xC000#16 → decodeWord op = some (.rnd x nn)) ∧
    (op &&& 0xF000#16 = 0xD000#16 → decodeWord op = some (.drw x y n)) ∧
    (op &&& 0xF0FF#16 = 0xE09E#16 → decodeWord op = some (.skp x)) ∧
    (op &&& 0xF0FF#16 = 0xE0A1#16 → decodeWord op = some (.sknp x)) ∧
    (op &&& 0xF0FF#16 = 0xF007#16 → decodeWord op = some (.ldVxDt x)) ∧
    (op &&& 0xF0FF#16 = 0xF00A#16 → decodeWord op = some (.ldVxK x)) ∧
    (op &&& 0xF0FF#16 = 0xF015#16 → decodeWord op = some (.ldDtVx x)) ∧
    (op &&& 0xF0FF#16 = 0xF018#16 → decodeWord op = some (.ldStVx x)) ∧
    (op &&& 0xF0FF#16 = 0xF01E#16 → decodeWord op = some (.addI x)) ∧
    (op &&& 0xF0FF#16 = 0xF029#16 → decodeWord op = some (.ldF x)) ∧
    (op &&& 0xF0FF#16 = 0xF033#16 → decodeWord op = some (.ldB x)) ∧
    (op &&& 0xF0FF#16 = 0xF055#16 → decodeWord op = some (.ldMemVx x)) ∧
    (op &&& 0xF0FF#16 = 0xF065#16 → decodeWord op = some (.ldVxMem x))

/-- The words without an instruction are exactly those of the six families of R65; that 5XY0, 9XY0,
00E0 and 00EE are matched literally and 0NNN not at all is the spec's decisions D7, D8 and D26 (log
entry 9). -/
def Obligations.UnmatchedWordsAreTheListedFamilies : Prop :=
  ∀ op : Word,
    let top := op.toNat / 4096
    let n := op.toNat % 16
    let nn := op.toNat % 256
    decodeWord op = none ↔
      (top = 0x0 ∧ op.toNat ≠ 0x00E0 ∧ op.toNat ≠ 0x00EE) ∨
      (top = 0x5 ∧ n ≠ 0) ∨
      (top = 0x8 ∧ (n = 0x8 ∨ n = 0x9 ∨ n = 0xA ∨ n = 0xB ∨ n = 0xC ∨ n = 0xD ∨ n = 0xF)) ∨
      (top = 0x9 ∧ n ≠ 0) ∨
      (top = 0xE ∧ nn ≠ 0x9E ∧ nn ≠ 0xA1) ∨
      (top = 0xF ∧ nn ≠ 0x07 ∧ nn ≠ 0x0A ∧ nn ≠ 0x15 ∧ nn ≠ 0x18 ∧ nn ≠ 0x1E ∧ nn ≠ 0x29 ∧
        nn ≠ 0x33 ∧ nn ≠ 0x55 ∧ nn ≠ 0x65)

/-- Decoding the two bytes of any well-formed instruction gives it back, with every operand, and
leaves the bytes after it (R71: the encoding procedure is the inverse of R64). -/
def Obligations.DecodeOfEncodeIsTheInstruction : Prop :=
  ∀ (i : Instr) (rest : List Byte), WellFormed i → decode (encode i ++ rest) = .ok i rest

/-- The decoder gives well-formed instructions only, and each word has one meaning: the word of the
decoded instruction is the decoded word, the ignored field of 8XY6 and 8XYE included. -/
def Obligations.EncodeOfDecodeIsTheWord : Prop :=
  ∀ (op : Word) (i : Instr), decodeWord op = some i → WellFormed i ∧ encodeWord i = op

/-! ### The step -/

/-- Where the environment has chosen no event before it, the step runs the instruction that the two
bytes at `pc` decode to; a chosen `Step` event is taken off the schedule first (R80, R84). -/
def Obligations.StepRunsTheDecodedInstruction : Prop :=
  ∀ (s : State) (i : Instr),
    s.pc.toNat + 1 < 4096 →
    decode [s.read (BitVec.ofNat 12 s.pc.toNat), s.read (BitVec.ofNat 12 (s.pc.toNat + 1))]
      = .ok i [] →
    (s.schedule = [] → step s = exec i s) ∧
    (∀ es, s.schedule = .cpu :: es → step s = exec i (s.setSchedule es))

/-- A word placed with `withFetchWord` is the instruction the very next step runs, from every
state. The placing is the model's own (log entry 8). -/
def Obligations.PlacedWordRunsNext : Prop :=
  ∀ (s : State) (op : Word) (i : Instr), decodeWord op = some i →
    step (s.withFetchWord 16 op.toNat) = exec i (s.withFetchWord 16 op.toNat)

/-- The fetch reads `MEM[pc] * 256 + MEM[pc + 1]`, and a CPU step, chosen or not, raises
`OutOfBoundsFetch` with `pc` exactly when `pc >= 0x0FFF`, on the unreduced value (R81). How the next
event stands in the state is the model's form (log entry 4). -/
def Obligations.FetchFaultsExactlyOutOfBounds : Prop :=
  ∀ s : State, nextEvent s = .cpu →
    (0x0FFF ≤ s.pc.toNat → step s = .fault (.outOfBoundsFetch s.pc)) ∧
    (s.pc.toNat < 0x0FFF →
      (∀ p, step s ≠ .fault (.outOfBoundsFetch p)) ∧
      ∃ op, s.fetch = some op ∧
        op.toNat = (s.read (BitVec.ofNat 12 s.pc.toNat)).toNat * 256
          + (s.read (BitVec.ofNat 12 (s.pc.toNat + 1))).toNat)

/-- An unmatched opcode is a no-operation with a report: `pc` advances by 2, nothing else changes, and
the step, chosen or not, carries the word and the address it was fetched from; a matched word carries
no report (R85). What the report carries is the spec's decision D20 (log entry 11); a chosen `Step` is
taken off the list of chosen events, which is the model's form (log entry 4). -/
def Obligations.UnmatchedOpcodeOnlyAdvancesAndReports : Prop :=
  ∀ (s : State) (op : Word), nextEvent s = .cpu → s.fetch = some op →
    (decodeWord op = none →
      ∃ t, step s = .next t ∧ Advanced 2 s t ∧
        OnlyChanges [] [] (s.setSchedule s.schedule.tail) t ∧ nextReport s = some ⟨op, s.pc⟩) ∧
    (∀ i, decodeWord op = some i → nextReport s = none)

/-- Every fault of a step is one of the four of R170, raised where R170 says, with the information
R170 says, for every STACK_DEPTH; that the stack is bounded and how a call on a full one ends is the
spec's decision D1 (log entry 1). -/
def Obligations.StepFaultsOnlyAsListed : Prop :=
  ∀ (s : State) (f : Fault), step s = .fault f →
    (nextEvent s = .cpu ∧
      ((f = .outOfBoundsFetch s.pc ∧ 0x0FFF ≤ s.pc.toNat) ∨
       (f = .stackUnderflow s.pc ∧ s.fetch = some 0x00EE#16 ∧ s.stack = []) ∨
       (f = .stackOverflow s.pc ∧ (∃ d, s.params.depth = some d ∧ d ≤ s.stack.length) ∧
          ∃ op, s.fetch = some op ∧ op.toNat / 4096 = 2))) ∨
    (∃ rom, nextEvent s = .load rom ∧ f = .romTooLarge rom.length ∧ 4096 < 0x200 + rom.length)

/-- No instruction is refused in any state; a step is refused only where the next event restores a
value that no snapshot returned, which is outside the contract (R190, decision D16; log entry 4). -/
def Obligations.NoInstructionIsRefused : Prop :=
  (∀ (i : Instr) (s : State) (r : Refusal), exec i s ≠ .refused r) ∧
  (∀ (s : State) (r : Refusal), step s = .refused r →
    r = .foreignSnapshot ∧ ∃ a, nextEvent s = .restore a ∧ a ∉ s.taken)

/-- An instruction that is no control transfer completes and leaves `pc` advanced by exactly 2 (R90);
the transfers are the jumps, the call, the return, the skips, and FX0A, which may rewind. -/
def Obligations.NonTransfersAdvanceByTwo : Prop :=
  ∀ (i : Instr) (s : State),
    (match i with
      | .ret | .jp _ | .call _ | .jpV0 _ | .seImm _ _ | .sneImm _ _ | .seReg _ _ | .sneReg _ _
      | .skp _ | .sknp _ | .ldVxK _ => False
      | _ => True) →
    ∃ t, exec i s = .next t ∧ Advanced 2 s t

/-- After a fault the machine cannot make progress by itself: neither a `Tick` nor a `SetKey` clears
the condition (R178). -/
def Obligations.TickAndSetKeyDoNotClearAFault : Prop :=
  ∀ (s : State) (f : Fault), cpuStep s = .fault f →
    cpuStep s.tick = .fault f ∧ ∀ k b, cpuStep (s.setKey k b) = .fault f

/-! ### Register load and arithmetic -/

/-- 6XNN (R130). -/
def Obligations.LoadImmediateWritesTheByte : Prop :=
  ∀ (x : Reg) (nn : Byte) (s : State), ∃ t, exec (.ldImm x nn) s = .next t ∧
    t.reg x = nn ∧ Advanced 2 s t ∧ OnlyChanges [x] [] s t

/-- 7XNN (R131): no flag is written unless `x` is F. -/
def Obligations.AddImmediateWrapsWithoutFlag : Prop :=
  ∀ (x : Reg) (nn : Byte) (s : State), ∃ t, exec (.addImm x nn) s = .next t ∧
    (t.reg x).toNat = ((s.reg x).toNat + nn.toNat) % 256 ∧ Advanced 2 s t ∧ OnlyChanges [x] [] s t

/-- 8XY0 (R132): with `x == y` nothing but `pc` changes. -/
def Obligations.CopyRegisterWritesTheSource : Prop :=
  ∀ (x y : Reg) (s : State), ∃ t, exec (.ldReg x y) s = .next t ∧
    t.reg x = s.reg y ∧ Advanced 2 s t ∧ OnlyChanges [x] [] s t ∧ (x = y → OnlyChanges [] [] s t)

/-- 8XY1, 8XY2, 8XY3 (R133, R134, R135), bit by bit; VF is left unchanged unless `x` is F. -/
def Obligations.LogicInstructionsActBitwise : Prop :=
  ∀ (x y : Reg) (s : State),
    (∃ t, exec (.orReg x y) s = .next t ∧ Advanced 2 s t ∧ OnlyChanges [x] [] s t ∧
      ∀ k < 8, (t.reg x).getLsbD k = ((s.reg x).getLsbD k || (s.reg y).getLsbD k)) ∧
    (∃ t, exec (.andReg x y) s = .next t ∧ Advanced 2 s t ∧ OnlyChanges [x] [] s t ∧
      ∀ k < 8, (t.reg x).getLsbD k = ((s.reg x).getLsbD k && (s.reg y).getLsbD k)) ∧
    (∃ t, exec (.xorReg x y) s = .next t ∧ Advanced 2 s t ∧ OnlyChanges [x] [] s t ∧
      ∀ k < 8, (t.reg x).getLsbD k = ((s.reg x).getLsbD k ^^ (s.reg y).getLsbD k))

/-- 8XY4 (R136): VF is the carry, written after the sum, so that for `x` = F the sum is lost; the
operands are the values at the start, for `y` = F too. For an operand or destination F the order of
reads and writes is the spec's decision D3 (log entry 5). -/
def Obligations.AddWritesSumThenCarry : Prop :=
  ∀ (x y : Reg) (s : State), ∃ t, exec (.addReg x y) s = .next t ∧
    (x ≠ vf → (t.reg x).toNat = ((s.reg x).toNat + (s.reg y).toNat) % 256) ∧
    FlagIs ((s.reg x).toNat + (s.reg y).toNat > 255) t ∧
    Advanced 2 s t ∧ OnlyChanges [x, vf] [] s t

/-- 8XY5 (R137): VF is 1 for no borrow, written before the difference, so that for `x` = F the
difference stands; the operands are the values at the start, for `y` = F too. For an operand or
destination F the order of reads and writes is the spec's decision D3 (log entry 5). -/
def Obligations.SubWritesNoBorrowThenDifference : Prop :=
  ∀ (x y : Reg) (s : State), ∃ t, exec (.sub x y) s = .next t ∧
    ((t.reg x).toNat : Int) = ((s.reg x).toNat - (s.reg y).toNat : Int) % 256 ∧
    (x ≠ vf → FlagIs ((s.reg y).toNat ≤ (s.reg x).toNat) t) ∧
    Advanced 2 s t ∧ OnlyChanges [x, vf] [] s t

/-- 8XY7 (R139): as 8XY5 with the operands exchanged; decision D3 likewise (log entry 5). -/
def Obligations.ReverseSubWritesNoBorrowThenDifference : Prop :=
  ∀ (x y : Reg) (s : State), ∃ t, exec (.subn x y) s = .next t ∧
    ((t.reg x).toNat : Int) = ((s.reg y).toNat - (s.reg x).toNat : Int) % 256 ∧
    (x ≠ vf → FlagIs ((s.reg x).toNat ≤ (s.reg y).toNat) t) ∧
    Advanced 2 s t ∧ OnlyChanges [x, vf] [] s t

/-- 8XY6 and 8XYE (R138, R140): a logical shift of `V[x]` by one, for every `y`; VF is the bit shifted
out, written before the result, so that for `x` = F the result stands (the spec's decision
D3; log entry 5). -/
def Obligations.ShiftsMoveOneBitIntoFlag : Prop :=
  ∀ (x y : Reg) (s : State),
    (∃ t, exec (.shr x y) s = .next t ∧
      (t.reg x).toNat = (s.reg x).toNat / 2 ∧
      (x ≠ vf → FlagIs ((s.reg x).getLsbD 0 = true) t) ∧
      Advanced 2 s t ∧ OnlyChanges [x, vf] [] s t) ∧
    (∃ t, exec (.shl x y) s = .next t ∧
      (t.reg x).toNat = 2 * (s.reg x).toNat % 256 ∧
      (x ≠ vf → FlagIs ((s.reg x).getLsbD 7 = true) t) ∧
      Advanced 2 s t ∧ OnlyChanges [x, vf] [] s t)

/-- CXNN (R141), whatever byte is drawn: `V[x]` is that byte AND `nn`, so it has no bit that `nn`
lacks. The byte is the free value at the count of drawn bytes, which goes up by one; that form is the
model's (log entry 3). The statement holds for every value of the count. -/
def Obligations.RandomByteIsMasked : Prop :=
  ∀ (x : Reg) (nn : Byte) (s : State),
    (∃ t, exec (.rnd x nn) s = .next t ∧
      t.reg x = Config.randByte s.draws &&& nn ∧
      (∀ k, nn.getLsbD k = false → (t.reg x).getLsbD k = false) ∧
      Advanced 2 s t ∧ OnlyChanges [x] [.draws] s t ∧ t.draws = s.draws + 1) ∧
    (∀ r : Byte, (rndWith r x nn s).reg x = r &&& nn ∧ Advanced 2 s (rndWith r x nn s) ∧
      OnlyChanges [x] [] s (rndWith r x nn s))

/-! ### Display -/

/-- 00E0 (R100). -/
def Obligations.ClearBlanksTheDisplay : Prop :=
  ∀ s : State, ∃ t, exec .cls s = .next t ∧ t.displayClear ∧ Advanced 2 s t ∧
    OnlyChanges [] [.display] s t

/-- DXYN (R101): every cell that a 1 bit of the sprite lies on is inverted, every other cell is as
before, with wraparound modulo 64 and 32 and bit 7 leftmost; VF is 1 if such a cell was set, else 0;
the coordinates are the values at the start, for `x` or `y` = F too. The bit order and the moment VF
is written are the spec's decisions D4 and D5 (log entry 6). -/
def Obligations.DrawXorsTheSpriteAndReportsCollision : Prop :=
  ∀ (x y : Reg) (n : Nat) (s : State), n < 16 →
    ∃ t, exec (.drw x y n) s = .next t ∧
      (∀ px py,
        (s.spriteCovers (s.reg x) (s.reg y) n px py → t.fb.cell px py = !s.fb.cell px py) ∧
        (¬ s.spriteCovers (s.reg x) (s.reg y) n px py → t.fb.cell px py = s.fb.cell px py)) ∧
      FlagIs (∃ px py, s.spriteCovers (s.reg x) (s.reg y) n px py ∧ s.fb.cell px py = true) t ∧
      Advanced 2 s t ∧ OnlyChanges [vf] [.display] s t

/-- Drawing the same sprite twice at the same place restores the display, and the second draw reports
a collision exactly if a 1 bit of the sprite lay on a cell that was 0 before the first (R101). With
`x` or `y` = F the first draw changes the place, so both differ from F. -/
def Obligations.DrawingTwiceRestoresTheDisplay : Prop :=
  ∀ (x y : Reg) (n : Nat) (s : State), n < 16 → x ≠ vf → y ≠ vf →
    ∃ t u, exec (.drw x y n) s = .next t ∧ exec (.drw x y n) t = .next u ∧
      (∀ px py, u.fb.cell px py = s.fb.cell px py) ∧
      FlagIs (∃ px py, s.spriteCovers (s.reg x) (s.reg y) n px py ∧ s.fb.cell px py = false) u

/-- 00E0 followed by any sequence of instructions that do not draw leaves the display all 0
(R100). -/
def Obligations.DisplayStaysClearWithoutDraw : Prop :=
  ∀ (is : List Instr) (s t : State), (∀ i ∈ is, isDraw i = false) →
    execAll (.cls :: is) s = .next t → t.displayClear

/-! ### Control transfer -/

/-- 00EE (R110, R172): the newest entry goes to `pc`; on an empty stack, `StackUnderflow`. -/
def Obligations.ReturnPopsOrUnderflows : Prop :=
  ∀ s : State,
    (∀ (l : List Word) (w : Word), s.stack = l ++ [w] →
      ∃ t, exec .ret s = .next t ∧ t.pc = w ∧ t.stack = l ∧ OnlyChanges [] [.stack] s t) ∧
    (s.stack = [] → exec .ret s = .fault (.stackUnderflow s.pc))

/-- 1NNN (R111): the target is taken as it stands; a jump to its own address changes nothing. -/
def Obligations.JumpSetsTheCounter : Prop :=
  ∀ (nnn : Nat) (s : State), nnn < 4096 →
    ∃ t, exec (.jp nnn) s = .next t ∧ t.pc.toNat = nnn ∧ OnlyChanges [] [] s t ∧
      (s.pc.toNat = nnn → t = s)

/-- 2NNN (R112, R173), for every STACK_DEPTH: with room on the stack, which an unbounded one always has,
the address of the next instruction is pushed; on a full stack, `StackOverflow`. The bound and its
fault are the spec's decision D1 (log entry 1). -/
def Obligations.CallPushesOrOverflows : Prop :=
  ∀ (nnn : Nat) (s : State), nnn < 4096 →
    ((∀ d, s.params.depth = some d → s.stack.length < d) →
      ∃ t w, exec (.call nnn) s = .next t ∧ t.pc.toNat = nnn ∧ t.stack = s.stack ++ [w] ∧
        w.toNat = (s.pc.toNat + 2) % 65536 ∧ OnlyChanges [] [.stack] s t) ∧
    (s.params.depth = some s.stack.length → exec (.call nnn) s = .fault (.stackOverflow s.pc))

/-- BNNN (R113): the 16-bit sum, not reduced to 12 bits; that it is not masked is the spec's decision
D23 (log entry 12). -/
def Obligations.JumpOffsetAddsV0 : Prop :=
  ∀ (nnn : Nat) (s : State), nnn < 4096 →
    ∃ t, exec (.jpV0 nnn) s = .next t ∧ t.pc.toNat = (s.reg v0).toNat + nnn ∧
      OnlyChanges [] [] s t

/-- A call and the return from it come back to the instruction after the call with the stack as
before, wherever the call has room on the stack (R110, R112; the bound is decision D1, log entry 1). -/
def Obligations.ReturnUndoesCall : Prop :=
  ∀ (nnn : Nat) (s : State), (∀ d, s.params.depth = some d → s.stack.length < d) →
    ∃ t u, exec (.call nnn) s = .next t ∧ exec .ret t = .next u ∧
      u.stack = s.stack ∧ Advanced 2 s u ∧ OnlyChanges [] [] s u

/-! ### Skips -/

/-- 3XNN and 4XNN (R120, R121): `pc` advances by 4 where the condition holds, else by 2. -/
def Obligations.ImmediateSkipsTestTheRegister : Prop :=
  ∀ (x : Reg) (nn : Byte) (s : State),
    (∃ t, exec (.seImm x nn) s = .next t ∧ OnlyChanges [] [] s t ∧
      (s.reg x = nn → Advanced 4 s t) ∧ (s.reg x ≠ nn → Advanced 2 s t)) ∧
    (∃ t, exec (.sneImm x nn) s = .next t ∧ OnlyChanges [] [] s t ∧
      (s.reg x ≠ nn → Advanced 4 s t) ∧ (s.reg x = nn → Advanced 2 s t))

/-- 5XY0 and 9XY0 (R122, R123): `pc` advances by 4 where the condition holds, else by 2. -/
def Obligations.RegisterSkipsCompareRegisters : Prop :=
  ∀ (x y : Reg) (s : State),
    (∃ t, exec (.seReg x y) s = .next t ∧ OnlyChanges [] [] s t ∧
      (s.reg x = s.reg y → Advanced 4 s t) ∧ (s.reg x ≠ s.reg y → Advanced 2 s t)) ∧
    (∃ t, exec (.sneReg x y) s = .next t ∧ OnlyChanges [] [] s t ∧
      (s.reg x ≠ s.reg y → Advanced 4 s t) ∧ (s.reg x = s.reg y → Advanced 2 s t))

/-- EX9E and EXA1 (R160, R161): the key tested is `V[x]` modulo 8, so that keys 8 to 15 are never
tested. -/
def Obligations.KeySkipsTestTheMaskedKey : Prop :=
  ∀ (x : Reg) (k : Key) (s : State), k.val = (s.reg x).toNat % 8 →
    (∃ t, exec (.skp x) s = .next t ∧ OnlyChanges [] [] s t ∧
      (s.pressed k = true → Advanced 4 s t) ∧ (s.pressed k = false → Advanced 2 s t)) ∧
    (∃ t, exec (.sknp x) s = .next t ∧ OnlyChanges [] [] s t ∧
      (s.pressed k = false → Advanced 4 s t) ∧ (s.pressed k = true → Advanced 2 s t))

/-! ### Index register and memory -/

/-- ANNN (R150). -/
def Obligations.LoadIndexWritesTheAddress : Prop :=
  ∀ (nnn : Nat) (s : State), nnn < 4096 →
    ∃ t, exec (.ldI nnn) s = .next t ∧ t.i.toNat = nnn ∧ Advanced 2 s t ∧
      OnlyChanges [] [.index] s t

/-- FX1E (R151): modulo 4096, and VF is unchanged. -/
def Obligations.AddToIndexWrapsAt4096 : Prop :=
  ∀ (x : Reg) (s : State), ∃ t, exec (.addI x) s = .next t ∧
    t.i.toNat = (s.i.toNat + (s.reg x).toNat) % 4096 ∧ Advanced 2 s t ∧
    OnlyChanges [] [.index] s t

/-- FX29 (R152): `V[x]` times 5, with no mask of `V[x]` and no reduction. -/
def Obligations.GlyphAddressIsFiveTimesTheDigit : Prop :=
  ∀ (x : Reg) (s : State), ∃ t, exec (.ldF x) s = .next t ∧
    t.i.toNat = (s.reg x).toNat * 5 ∧ Advanced 2 s t ∧ OnlyChanges [] [.index] s t

/-- FX33 (R153): hundreds, tens and ones at `EA(0)`, `EA(1)` and `EA(2)`; every other byte of memory
reads as before. The formulas of the hundreds and the ones are the spec's decision D21 (log entry 16),
as only that of the tens stands in the source. -/
def Obligations.DecimalDigitsAreStored : Prop :=
  ∀ (x : Reg) (s : State), ∃ t, exec (.ldB x) s = .next t ∧
    (t.read (s.ea 0)).toNat = (s.reg x).toNat / 100 ∧
    (t.read (s.ea 1)).toNat = (s.reg x).toNat % 100 / 10 ∧
    (t.read (s.ea 2)).toNat = (s.reg x).toNat % 10 ∧
    (∀ k, (s.ea k).toNat = (s.i.toNat + k) % 4096) ∧
    (∀ a, a ≠ s.ea 0 → a ≠ s.ea 1 → a ≠ s.ea 2 → t.read a = s.read a) ∧
    Advanced 2 s t ∧ OnlyChanges [] [.memory] s t

/-- FX55 (R154): `V[k]` is stored at `EA(k)` for k = 0 to x; every other byte of memory reads as
before; `I` is unchanged. That FX55 is the store is the spec's decision D9 (log entry 7). -/
def Obligations.BlockStoreWritesRegistersToMemory : Prop :=
  ∀ (x : Reg) (s : State), ∃ t, exec (.ldMemVx x) s = .next t ∧
    (∀ k : Reg, k ≤ x → t.read (s.ea k.val) = s.reg k) ∧
    (∀ k, (s.ea k).toNat = (s.i.toNat + k) % 4096) ∧
    (∀ a, (∀ k : Reg, k ≤ x → a ≠ s.ea k.val) → t.read a = s.read a) ∧
    Advanced 2 s t ∧ OnlyChanges [] [.memory] s t

/-- FX65 (R155): `V[k]` is loaded from `EA(k)` for k = 0 to x; the registers above x, memory and `I`
are unchanged. That FX65 is the load is the spec's decision D9 (log entry 7). -/
def Obligations.BlockLoadReadsRegistersFromMemory : Prop :=
  ∀ (x : Reg) (s : State), ∃ t, exec (.ldVxMem x) s = .next t ∧
    (∀ k : Reg, k ≤ x → t.reg k = s.read (BitVec.ofNat 12 (s.i.toNat + k.val))) ∧
    Advanced 2 s t ∧ OnlyChanges ((List.finRange 16).filter (· ≤ x)) [] s t

/-- A store is seen by the very next fetch: FX55 that stores its first two registers over the next
instruction makes the next CPU step, chosen or not, run the instruction those two bytes encode
(R52, which the spec marks as derived). That FX55 is the store is the spec's decision D9 (log entry
7). -/
def Obligations.StoredInstructionRunsOnTheNextStep : Prop :=
  ∀ (x : Reg) (s : State) (i : Instr), 1 ≤ x.val → s.i.toNat = s.pc.toNat + 2 →
    s.pc.toNat + 3 < 4096 → nextEvent s = .cpu → decode [s.reg 0, s.reg 1] = .ok i [] →
    ∃ t, exec (.ldMemVx x) s = .next t ∧ step t = exec i (t.setSchedule s.schedule.tail)

/-! ### Keys and timers -/

/-- FX0A (R162): with no key pressed the step is a fixed point of the state; else `V[x]` is the least
pressed key. -/
def Obligations.KeyWaitRewindsOrReadsTheLowestKey : Prop :=
  ∀ (x : Reg) (s : State),
    ((∀ k, s.pressed k = false) → exec (.ldVxK x) s = .next s) ∧
    (∀ k, s.pressed k = true → (∀ j < k, s.pressed j = false) →
      ∃ t, exec (.ldVxK x) s = .next t ∧ (t.reg x).toNat = k.val ∧ Advanced 2 s t ∧
        OnlyChanges [x] [] s t)

/-- FX07, FX15 and FX18 (R163, R164, R165): `tone` is true exactly when the new `ST` is not 0. -/
def Obligations.TimerInstructionsMoveTheTimers : Prop :=
  ∀ (x : Reg) (s : State),
    (∃ t, exec (.ldVxDt x) s = .next t ∧ t.reg x = s.dt ∧ Advanced 2 s t ∧ OnlyChanges [x] [] s t) ∧
    (∃ t, exec (.ldDtVx x) s = .next t ∧ t.dt = s.reg x ∧ Advanced 2 s t ∧
      OnlyChanges [] [.delay] s t) ∧
    (∃ t, exec (.ldStVx x) s = .next t ∧ t.st = s.reg x ∧ Advanced 2 s t ∧
      OnlyChanges [] [.sound] s t ∧ (t.tone = true ↔ s.reg x ≠ 0#8))

/-- `Tick` (R183): both timers go down by 1 if nonzero, independently; nothing else changes. That the
next event stands first in `schedule` is the model's form (log entry 4), here and below. -/
def Obligations.TickDecrementsBothTimers : Prop :=
  ∀ (s : State) (es : List Event), s.schedule = .tick :: es →
    ∃ t, step s = .next t ∧
      (s.dt ≠ 0#8 → t.dt.toNat + 1 = s.dt.toNat) ∧ (s.dt = 0#8 → t.dt = 0#8) ∧
      (s.st ≠ 0#8 → t.st.toNat + 1 = s.st.toNat) ∧ (s.st = 0#8 → t.st = 0#8) ∧
      t.pc = s.pc ∧ OnlyChanges [] [.delay, .sound] (s.setSchedule es) t

/-- `n` ticks take `n` off each timer, and stop at 0 (R207: after FX15 writes v, exactly v `Tick`
events bring it to 0). -/
def Obligations.TicksCountTimersDownToZero : Prop :=
  ∀ (n : Nat) (s : State) (es : List Event), s.schedule = List.replicate n .tick ++ es →
    ∃ t, RunsTo n s t ∧ t.dt.toNat = s.dt.toNat - n ∧ t.st.toNat = s.st.toNat - n ∧
      t.schedule = es ∧ t.pc = s.pc

/-- `SetKey(k, b)` (R187): that key, and nothing else. -/
def Obligations.SetKeyChangesOneKey : Prop :=
  ∀ (s : State) (k : Key) (b : Bool) (es : List Event), s.schedule = .setKey k b :: es →
    ∃ t, step s = .next t ∧ t.pressed k = b ∧ (∀ j, j ≠ k → t.pressed j = s.pressed j) ∧
      ({ t with key := s.key } : State) = s.setSchedule es

/-! ### Reset, load, snapshot -/

/-- `Reset` (R200) leaves every piece of state at the value of R32, from every state; FONT is the
parameter, whatever its bytes (log entry 2). That the keys are released is the spec's decision D25 (log
entry 16). -/
def Obligations.ResetLeavesTheResetValues : Prop :=
  ∀ (s : State) (es : List Event), s.schedule = .reset :: es →
    ∃ t, step s = .next t ∧ (∀ x, t.reg x = 0#8) ∧ t.i.toNat = 0 ∧ t.pc.toNat = 0x200 ∧
      t.stack = [] ∧ t.dt = 0#8 ∧ t.st = 0#8 ∧ t.displayClear ∧
      (∀ (a : Addr) (h : a.toNat < 80), t.read a = s.params.font[a.toNat]) ∧
      (∀ a : Addr, 80 ≤ a.toNat → t.read a = 0#8) ∧
      (∀ k, t.pressed k = false) ∧ t.tone = false ∧ t.toArch = (State.resetOf s.params).toArch ∧
      t.params = s.params

/-- `Load(rom)` (R201): the bytes go to 0x200 and up and nothing else changes; a ROM that does not
fit raises `RomTooLarge`. That nothing else changes is the spec's decision D17 (log entry 14). -/
def Obligations.LoadCopiesTheRomOrFaults : Prop :=
  ∀ (s : State) (rom : List Byte) (es : List Event), s.schedule = .load rom :: es →
    (0x200 + rom.length ≤ 4096 →
      ∃ t, step s = .next t ∧
        (∀ j (h : j < rom.length), t.read (BitVec.ofNat 12 (0x200 + j)) = rom[j]) ∧
        (∀ a : Addr, (a.toNat < 0x200 ∨ 0x200 + rom.length ≤ a.toNat) →
          t.read a = s.read a) ∧
        t.pc = s.pc ∧ OnlyChanges [] [.memory] (s.setSchedule es) t) ∧
    (4096 < 0x200 + rom.length → step s = .fault (.romTooLarge rom.length))

/-- The boot sequence (R202): `Reset`, then `Load(rom)`, then a `Step` runs the instruction in the first
two bytes of the ROM, from whatever state the machine was in, with `pc` at 0x200 and every other piece
of state but memory as reset leaves it. -/
def Obligations.BootRunsTheFirstRomInstruction : Prop :=
  ∀ (s : State) (hi lo : Byte) (rest : List Byte) (i : Instr) (es : List Event),
    s.schedule = .reset :: .load (hi :: lo :: rest) :: .cpu :: es →
    rest.length + 2 ≤ 3584 → decode [hi, lo] = .ok i [] →
    ∃ u, RunsTo 2 s u ∧ u.pc.toNat = 0x200 ∧ step u = exec i (u.setSchedule es) ∧
      ({ u.toArch with mem := [] } : Arch) = State.reset.toArch

/-- A `Snapshot` completes from every state and changes nothing of the machine (R190): the host holds
one value more, the whole architectural state. What the host holds is the model's own field (log entry
4). -/
def Obligations.SnapshotCopiesAndChangesNothing : Prop :=
  ∀ (s : State) (es : List Event), s.schedule = .snapshot :: es →
    ∃ t, step s = .next t ∧ t.toArch = s.toArch ∧ t.taken = s.taken ++ [s.toArch] ∧
      t.schedule = es ∧ t.draws = s.draws ∧ t.params = s.params

/-- A `Restore` of a value that an earlier `Snapshot` returned completes from every state and replaces
the whole architectural state (R190); a `Restore` of any other value is refused, as decision D16 asks of
a model. What the host holds is the model's own field (log entry 4). -/
def Obligations.RestoreReplacesTheStateOrIsRefused : Prop :=
  ∀ (s : State) (a : Arch) (es : List Event), s.schedule = .restore a :: es →
    (a ∈ s.taken → ∃ t, step s = .next t ∧ t.toArch = a ∧ t.schedule = es ∧ t.taken = s.taken ∧
      t.draws = s.draws ∧ t.params = s.params) ∧
    (a ∉ s.taken → step s = .refused .foreignSnapshot)

/-- The snapshot and restore round trip (R190): whatever events complete after a `Snapshot`, a
`Restore` of its value leaves every field as it was when the snapshot was taken; and where the events
between are of those that always complete, the whole run completes. Events and snapshots stand in the
state in the model's own form (log entry 4). -/
def Obligations.RestoreOfSnapshotRoundTrips : Prop :=
  ∀ (s : State) (es rest : List Event),
    s.schedule = .snapshot :: (es ++ .restore s.toArch :: rest) →
    (∀ u, RunsTo (es.length + 1) s u →
      ∃ t, step u = .next t ∧ t.toArch = s.toArch ∧ t.schedule = rest) ∧
    ((∀ e ∈ es, alwaysCompletes e = true) →
      ∃ t, RunsTo (es.length + 2) s t ∧ t.toArch = s.toArch ∧ t.schedule = rest)

/-! ### The whole machine -/

/-- The invariant of R33 holds right after reset, for every admitted STACK_DEPTH and FONT and whatever
events are to come. -/
def Obligations.InvariantHoldsAtReset : Prop :=
  ∀ (p : Params) (es : List Event), p.wf = true → ((State.resetOf p).setSchedule es).Inv

/-- STACK_DEPTH and FONT are parameters (R5, R29): no event and no instruction changes them. That they
stand in the state is the model's form (log entries 1 and 2). -/
def Obligations.NoStepChangesTheParameters : Prop :=
  ∀ s t : State, step s = .next t → t.params = s.params

/-- Every event keeps the invariant of R33: `I <= 0x0FFF`, `pc <= 0x10FE`, every stack entry between 2
and 0x1000, `SP` at most STACK_DEPTH, and the memory list in its canonical form. The spec marks R33 as
its own inference. -/
def Obligations.EveryStepKeepsTheInvariant : Prop :=
  ∀ s t : State, s.Inv → step s = .next t → t.Inv

/-- Each piece of state is written only by the instructions that the summary of 10_state.md lists: a
general register by an instruction that names it as its destination, by FX65 up to its `x`, and `V[15]`
by the six flag instructions (R20, R21); `pc` past the next instruction only by a transfer, by a skip as
far as the instruction after the next, and by FX0A back to itself (R23); `I` by ANNN, FX1E and FX29 (R22), the stack by 2NNN and 00EE (R24), `DT` by FX15 and `ST` by FX18
(R25), `FB` by 00E0 and DXYN (R26), `MEM` by FX33 and FX55 (R27), and `KEY` by none (R30). -/
def Obligations.EachPieceOfStateHasItsWriters : Prop :=
  ∀ (i : Instr) (s t : State), exec i s = .next t →
    (∀ r, t.reg r = s.reg r ∨
      (∃ nn, i = .ldImm r nn ∨ i = .addImm r nn ∨ i = .rnd r nn) ∨
      (∃ y, i = .ldReg r y ∨ i = .orReg r y ∨ i = .andReg r y ∨ i = .xorReg r y) ∨
      (∃ y, i = .addReg r y ∨ i = .sub r y ∨ i = .subn r y ∨ i = .shr r y ∨ i = .shl r y) ∨
      i = .ldVxDt r ∨ i = .ldVxK r ∨ (∃ x, r ≤ x ∧ i = .ldVxMem x) ∨
      (r = vf ∧ ∃ x y, i = .addReg x y ∨ i = .sub x y ∨ i = .subn x y ∨ i = .shr x y ∨
        i = .shl x y ∨ ∃ n, i = .drw x y n)) ∧
    (Advanced 2 s t ∨
      (Advanced 4 s t ∧ ∃ x, (∃ nn, i = .seImm x nn ∨ i = .sneImm x nn) ∨
        (∃ y, i = .seReg x y ∨ i = .sneReg x y) ∨ i = .skp x ∨ i = .sknp x) ∨
      (t.pc = s.pc ∧ ∃ x, i = .ldVxK x) ∨
      (∃ n, i = .jp n ∨ i = .call n ∨ i = .jpV0 n) ∨ i = .ret) ∧
    (t.i = s.i ∨ (∃ n, i = .ldI n) ∨ (∃ x, i = .addI x) ∨ (∃ x, i = .ldF x)) ∧
    (t.stack = s.stack ∨ (∃ n, i = .call n) ∨ i = .ret) ∧
    (t.dt = s.dt ∨ ∃ x, i = .ldDtVx x) ∧
    (t.st = s.st ∨ ∃ x, i = .ldStVx x) ∧
    (t.fb = s.fb ∨ i = .cls ∨ ∃ x y n, i = .drw x y n) ∧
    (t.mem = s.mem ∨ (∃ x, i = .ldB x) ∨ ∃ x, i = .ldMemVx x) ∧
    t.key = s.key

/-- VF is written only by the six instructions of R21 and by an instruction that names it as its
destination: with `x` = F, or FX65 with `x` = F. -/
def Obligations.FlagRegisterHasItsWriters : Prop :=
  ∀ (i : Instr) (s t : State), exec i s = .next t →
    t.reg vf = s.reg vf ∨
    (∃ x y, i = .addReg x y ∨ i = .sub x y ∨ i = .subn x y ∨ i = .shr x y ∨ i = .shl x y) ∨
    (∃ x y n, i = .drw x y n) ∨
    (∃ nn, i = .ldImm vf nn ∨ i = .addImm vf nn ∨ i = .rnd vf nn) ∨
    (∃ y, i = .ldReg vf y ∨ i = .orReg vf y ∨ i = .andReg vf y ∨ i = .xorReg vf y) ∨
    i = .ldVxDt vf ∨ i = .ldVxK vf ∨ i = .ldVxMem vf

/-- An instruction other than CXNN ignores the random input (R189), and no instruction's effect
depends on the events still to come or on the snapshots the host holds: changing them before or
after the instruction is the same. The three fields are the model's own, by the choices of log entries
3 (the count of drawn bytes) and 4 (the chosen events and the snapshots); the spec has no such state. -/
def Obligations.InstructionsIgnoreTheEnvironment : Prop :=
  ∀ (i : Instr) (s : State),
    ((∀ x nn, i ≠ .rnd x nn) →
      ∀ d, exec i (s.setDraws d) = andThen (exec i s) fun t => .next (t.setDraws d)) ∧
    (∀ es, exec i (s.setSchedule es) = andThen (exec i s) fun t => .next (t.setSchedule es)) ∧
    (∀ as, exec i (s.setTaken as) = andThen (exec i s) fun t => .next (t.setTaken as))
end

