-- ==== Sys2Proof/Laws/Decode.lean ====
section
/-! SUPPORT. The fields of an instruction word and its bits under the masks of the opcode map, as
arithmetic on the word's value (spec 30_encoding.md R61, R64). -/

namespace Sys2Proof

/-! ### Fields -/

theorem opTop_toNat (op : Word) : (opTop op).toNat = op.toNat / 4096 := by
  have := op.isLt
  simp only [opTop, BitVec.extractLsb'_toNat, Nat.shiftRight_eq_div_pow]
  omega

theorem opX_eq (op : Word) : opX op = Fin.ofNat 16 (op.toNat / 256) := by
  ext
  simp [opX, Fin.ofNat, Nat.shiftRight_eq_div_pow]

theorem opY_eq (op : Word) : opY op = Fin.ofNat 16 (op.toNat / 16) := by
  ext
  simp [opY, Fin.ofNat, Nat.shiftRight_eq_div_pow]

theorem opN_toNat (op : Word) : (opN op).toNat = op.toNat % 16 := by
  simp [opN]

theorem opN_eq_zero (op : Word) : opN op = 0#4 ↔ op.toNat % 16 = 0 := by
  rw [← opN_toNat]
  exact ⟨fun h => by simp [h], fun h => BitVec.eq_of_toNat_eq (by simpa using h)⟩

theorem opNN_eq (op : Word) : opNN op = BitVec.ofNat 8 op.toNat :=
  BitVec.eq_of_toNat_eq (by simp [opNN])

theorem opNN_toNat (op : Word) : (opNN op).toNat = op.toNat % 256 := by
  simp [opNN]

theorem opNNN_toNat (op : Word) : (opNNN op).toNat = op.toNat % 4096 := by
  simp [opNNN]

/-! ### Masks -/

/-- The mask 0xF000 keeps the primary opcode. -/
theorem mask_F000 (op : Word) : (op &&& 0xF000#16).toNat = op.toNat / 4096 * 4096 := by
  have h : op &&& 0xF000#16 = opTop op ++ 0#12 := by
    apply BitVec.eq_of_getLsbD_eq
    intro i hi
    simp only [opTop, BitVec.getLsbD_and, BitVec.getLsbD_append, BitVec.getLsbD_extractLsb']
    interval_cases i <;> simp
  rw [h, BitVec.toNat_append, ← Nat.shiftLeft_add_eq_or_of_lt (BitVec.isLt _), opTop_toNat,
    Nat.shiftLeft_eq]
  simp

/-- The mask 0xF00F keeps the primary opcode and bits 3:0. -/
theorem mask_F00F (op : Word) :
    (op &&& 0xF00F#16).toNat = op.toNat / 4096 * 4096 + op.toNat % 16 := by
  have h : op &&& 0xF00F#16 = opTop op ++ (opN op).setWidth 12 := by
    apply BitVec.eq_of_getLsbD_eq
    intro i hi
    simp only [opTop, opN, BitVec.getLsbD_and, BitVec.getLsbD_append, BitVec.getLsbD_setWidth,
      BitVec.getLsbD_extractLsb']
    interval_cases i <;> simp
  rw [h, BitVec.toNat_append, ← Nat.shiftLeft_add_eq_or_of_lt (BitVec.isLt _), opTop_toNat,
    Nat.shiftLeft_eq]
  simp only [BitVec.toNat_setWidth, opN_toNat]
  omega

/-- The mask 0xF0FF keeps the primary opcode and bits 7:0. -/
theorem mask_F0FF (op : Word) :
    (op &&& 0xF0FF#16).toNat = op.toNat / 4096 * 4096 + op.toNat % 256 := by
  have h : op &&& 0xF0FF#16 = opTop op ++ (opNN op).setWidth 12 := by
    apply BitVec.eq_of_getLsbD_eq
    intro i hi
    simp only [opTop, opNN, BitVec.getLsbD_and, BitVec.getLsbD_append, BitVec.getLsbD_setWidth,
      BitVec.getLsbD_extractLsb']
    interval_cases i <;> simp
  rw [h, BitVec.toNat_append, ← Nat.shiftLeft_add_eq_or_of_lt (BitVec.isLt _), opTop_toNat,
    Nat.shiftLeft_eq]
  simp only [BitVec.toNat_setWidth, opNN_toNat]
  omega

/-- The halves of a word, put together, are the word (R42). -/
theorem wordOfBytes_split (op : Word) : wordOfBytes (highByte op) (lowByte op) = op := by
  unfold wordOfBytes highByte lowByte
  apply BitVec.eq_of_toNat_eq
  rw [BitVec.toNat_append, ← Nat.shiftLeft_add_eq_or_of_lt (BitVec.isLt _)]
  simp only [BitVec.extractLsb'_toNat, Nat.shiftLeft_eq, Nat.shiftRight_eq_div_pow]
  have := op.isLt
  omega

/-- A word is 256 times its high byte plus its low byte (R42). -/
theorem wordOfBytes_toNat (hi lo : Byte) :
    (wordOfBytes hi lo).toNat = hi.toNat * 256 + lo.toNat := by
  unfold wordOfBytes
  rw [BitVec.toNat_append, ← Nat.shiftLeft_add_eq_or_of_lt (BitVec.isLt _), Nat.shiftLeft_eq]

/-- Decoding the two bytes of a word is decoding the word (R42, R60). -/
theorem decode_bytes (op : Word) (rest : List Byte) :
    decode (highByte op :: lowByte op :: rest) =
      match decodeWord op with
      | some i => .ok i rest
      | none => .rejected (.unknownOpcode op) := by
  cases h : decodeWord op <;> simp only [decode, wordOfBytes_split, h]

end Sys2Proof
end

