-- ==== Sys2Proof/Laws/State.lean ====
section
/-! SUPPORT. One lemma per field per update of the state, each true by definition, so that no later proof
unfolds a record update; and what reading a register, a key or a cell after a write gives. -/

namespace Sys2Proof.Machine

/-! ### `setI` -/

@[simp] theorem State.setI_v (s : State) (w : Word) : (s.setI w).v = s.v := rfl
@[simp] theorem State.setI_i (s : State) (w : Word) : (s.setI w).i = w := rfl
@[simp] theorem State.setI_pc (s : State) (w : Word) : (s.setI w).pc = s.pc := rfl
@[simp] theorem State.setI_stack (s : State) (w : Word) : (s.setI w).stack = s.stack := rfl
@[simp] theorem State.setI_dt (s : State) (w : Word) : (s.setI w).dt = s.dt := rfl
@[simp] theorem State.setI_st (s : State) (w : Word) : (s.setI w).st = s.st := rfl
@[simp] theorem State.setI_fb (s : State) (w : Word) : (s.setI w).fb = s.fb := rfl
@[simp] theorem State.setI_mem (s : State) (w : Word) : (s.setI w).mem = s.mem := rfl
@[simp] theorem State.setI_key (s : State) (w : Word) : (s.setI w).key = s.key := rfl
@[simp] theorem State.setI_draws (s : State) (w : Word) : (s.setI w).draws = s.draws := rfl
@[simp] theorem State.setI_schedule (s : State) (w : Word) : (s.setI w).schedule = s.schedule := rfl
@[simp] theorem State.setI_taken (s : State) (w : Word) : (s.setI w).taken = s.taken := rfl
@[simp] theorem State.setI_reg (s : State) (w : Word) (x : Reg) : (s.setI w).reg x = s.reg x := rfl
@[simp] theorem State.setI_pressed (s : State) (w : Word) (k : Key) :
    (s.setI w).pressed k = s.pressed k := rfl

/-! ### `setPc` -/

@[simp] theorem State.setPc_v (s : State) (w : Word) : (s.setPc w).v = s.v := rfl
@[simp] theorem State.setPc_i (s : State) (w : Word) : (s.setPc w).i = s.i := rfl
@[simp] theorem State.setPc_pc (s : State) (w : Word) : (s.setPc w).pc = w := rfl
@[simp] theorem State.setPc_stack (s : State) (w : Word) : (s.setPc w).stack = s.stack := rfl
@[simp] theorem State.setPc_dt (s : State) (w : Word) : (s.setPc w).dt = s.dt := rfl
@[simp] theorem State.setPc_st (s : State) (w : Word) : (s.setPc w).st = s.st := rfl
@[simp] theorem State.setPc_fb (s : State) (w : Word) : (s.setPc w).fb = s.fb := rfl
@[simp] theorem State.setPc_mem (s : State) (w : Word) : (s.setPc w).mem = s.mem := rfl
@[simp] theorem State.setPc_key (s : State) (w : Word) : (s.setPc w).key = s.key := rfl
@[simp] theorem State.setPc_draws (s : State) (w : Word) : (s.setPc w).draws = s.draws := rfl
@[simp] theorem State.setPc_schedule (s : State) (w : Word) :
    (s.setPc w).schedule = s.schedule := rfl
@[simp] theorem State.setPc_taken (s : State) (w : Word) : (s.setPc w).taken = s.taken := rfl
@[simp] theorem State.setPc_reg (s : State) (w : Word) (x : Reg) :
    (s.setPc w).reg x = s.reg x := rfl
@[simp] theorem State.setPc_pressed (s : State) (w : Word) (k : Key) :
    (s.setPc w).pressed k = s.pressed k := rfl

/-! ### `setStack` -/

@[simp] theorem State.setStack_v (s : State) (l : List Word) : (s.setStack l).v = s.v := rfl
@[simp] theorem State.setStack_i (s : State) (l : List Word) : (s.setStack l).i = s.i := rfl
@[simp] theorem State.setStack_pc (s : State) (l : List Word) : (s.setStack l).pc = s.pc := rfl
@[simp] theorem State.setStack_stack (s : State) (l : List Word) : (s.setStack l).stack = l := rfl
@[simp] theorem State.setStack_dt (s : State) (l : List Word) : (s.setStack l).dt = s.dt := rfl
@[simp] theorem State.setStack_st (s : State) (l : List Word) : (s.setStack l).st = s.st := rfl
@[simp] theorem State.setStack_fb (s : State) (l : List Word) : (s.setStack l).fb = s.fb := rfl
@[simp] theorem State.setStack_mem (s : State) (l : List Word) : (s.setStack l).mem = s.mem := rfl
@[simp] theorem State.setStack_key (s : State) (l : List Word) : (s.setStack l).key = s.key := rfl
@[simp] theorem State.setStack_draws (s : State) (l : List Word) :
    (s.setStack l).draws = s.draws := rfl
@[simp] theorem State.setStack_schedule (s : State) (l : List Word) :
    (s.setStack l).schedule = s.schedule := rfl
@[simp] theorem State.setStack_taken (s : State) (l : List Word) :
    (s.setStack l).taken = s.taken := rfl
@[simp] theorem State.setStack_reg (s : State) (l : List Word) (x : Reg) :
    (s.setStack l).reg x = s.reg x := rfl
@[simp] theorem State.setStack_pressed (s : State) (l : List Word) (k : Key) :
    (s.setStack l).pressed k = s.pressed k := rfl

/-! ### `setDt` -/

@[simp] theorem State.setDt_v (s : State) (b : Byte) : (s.setDt b).v = s.v := rfl
@[simp] theorem State.setDt_i (s : State) (b : Byte) : (s.setDt b).i = s.i := rfl
@[simp] theorem State.setDt_pc (s : State) (b : Byte) : (s.setDt b).pc = s.pc := rfl
@[simp] theorem State.setDt_stack (s : State) (b : Byte) : (s.setDt b).stack = s.stack := rfl
@[simp] theorem State.setDt_dt (s : State) (b : Byte) : (s.setDt b).dt = b := rfl
@[simp] theorem State.setDt_st (s : State) (b : Byte) : (s.setDt b).st = s.st := rfl
@[simp] theorem State.setDt_fb (s : State) (b : Byte) : (s.setDt b).fb = s.fb := rfl
@[simp] theorem State.setDt_mem (s : State) (b : Byte) : (s.setDt b).mem = s.mem := rfl
@[simp] theorem State.setDt_key (s : State) (b : Byte) : (s.setDt b).key = s.key := rfl
@[simp] theorem State.setDt_draws (s : State) (b : Byte) : (s.setDt b).draws = s.draws := rfl
@[simp] theorem State.setDt_schedule (s : State) (b : Byte) :
    (s.setDt b).schedule = s.schedule := rfl
@[simp] theorem State.setDt_taken (s : State) (b : Byte) : (s.setDt b).taken = s.taken := rfl
@[simp] theorem State.setDt_reg (s : State) (b : Byte) (x : Reg) :
    (s.setDt b).reg x = s.reg x := rfl
@[simp] theorem State.setDt_pressed (s : State) (b : Byte) (k : Key) :
    (s.setDt b).pressed k = s.pressed k := rfl

/-! ### `setSt` -/

@[simp] theorem State.setSt_v (s : State) (b : Byte) : (s.setSt b).v = s.v := rfl
@[simp] theorem State.setSt_i (s : State) (b : Byte) : (s.setSt b).i = s.i := rfl
@[simp] theorem State.setSt_pc (s : State) (b : Byte) : (s.setSt b).pc = s.pc := rfl
@[simp] theorem State.setSt_stack (s : State) (b : Byte) : (s.setSt b).stack = s.stack := rfl
@[simp] theorem State.setSt_dt (s : State) (b : Byte) : (s.setSt b).dt = s.dt := rfl
@[simp] theorem State.setSt_st (s : State) (b : Byte) : (s.setSt b).st = b := rfl
@[simp] theorem State.setSt_fb (s : State) (b : Byte) : (s.setSt b).fb = s.fb := rfl
@[simp] theorem State.setSt_mem (s : State) (b : Byte) : (s.setSt b).mem = s.mem := rfl
@[simp] theorem State.setSt_key (s : State) (b : Byte) : (s.setSt b).key = s.key := rfl
@[simp] theorem State.setSt_draws (s : State) (b : Byte) : (s.setSt b).draws = s.draws := rfl
@[simp] theorem State.setSt_schedule (s : State) (b : Byte) :
    (s.setSt b).schedule = s.schedule := rfl
@[simp] theorem State.setSt_taken (s : State) (b : Byte) : (s.setSt b).taken = s.taken := rfl
@[simp] theorem State.setSt_reg (s : State) (b : Byte) (x : Reg) :
    (s.setSt b).reg x = s.reg x := rfl
@[simp] theorem State.setSt_pressed (s : State) (b : Byte) (k : Key) :
    (s.setSt b).pressed k = s.pressed k := rfl

/-! ### `setFb` -/

@[simp] theorem State.setFb_v (s : State) (f : Frame) : (s.setFb f).v = s.v := rfl
@[simp] theorem State.setFb_i (s : State) (f : Frame) : (s.setFb f).i = s.i := rfl
@[simp] theorem State.setFb_pc (s : State) (f : Frame) : (s.setFb f).pc = s.pc := rfl
@[simp] theorem State.setFb_stack (s : State) (f : Frame) : (s.setFb f).stack = s.stack := rfl
@[simp] theorem State.setFb_dt (s : State) (f : Frame) : (s.setFb f).dt = s.dt := rfl
@[simp] theorem State.setFb_st (s : State) (f : Frame) : (s.setFb f).st = s.st := rfl
@[simp] theorem State.setFb_fb (s : State) (f : Frame) : (s.setFb f).fb = f := rfl
@[simp] theorem State.setFb_mem (s : State) (f : Frame) : (s.setFb f).mem = s.mem := rfl
@[simp] theorem State.setFb_key (s : State) (f : Frame) : (s.setFb f).key = s.key := rfl
@[simp] theorem State.setFb_draws (s : State) (f : Frame) : (s.setFb f).draws = s.draws := rfl
@[simp] theorem State.setFb_schedule (s : State) (f : Frame) :
    (s.setFb f).schedule = s.schedule := rfl
@[simp] theorem State.setFb_taken (s : State) (f : Frame) : (s.setFb f).taken = s.taken := rfl
@[simp] theorem State.setFb_reg (s : State) (f : Frame) (x : Reg) :
    (s.setFb f).reg x = s.reg x := rfl
@[simp] theorem State.setFb_pressed (s : State) (f : Frame) (k : Key) :
    (s.setFb f).pressed k = s.pressed k := rfl

/-! ### `setMem` -/

@[simp] theorem State.setMem_v (s : State) (m : Memory) : (s.setMem m).v = s.v := rfl
@[simp] theorem State.setMem_i (s : State) (m : Memory) : (s.setMem m).i = s.i := rfl
@[simp] theorem State.setMem_pc (s : State) (m : Memory) : (s.setMem m).pc = s.pc := rfl
@[simp] theorem State.setMem_stack (s : State) (m : Memory) : (s.setMem m).stack = s.stack := rfl
@[simp] theorem State.setMem_dt (s : State) (m : Memory) : (s.setMem m).dt = s.dt := rfl
@[simp] theorem State.setMem_st (s : State) (m : Memory) : (s.setMem m).st = s.st := rfl
@[simp] theorem State.setMem_fb (s : State) (m : Memory) : (s.setMem m).fb = s.fb := rfl
@[simp] theorem State.setMem_mem (s : State) (m : Memory) : (s.setMem m).mem = m := rfl
@[simp] theorem State.setMem_key (s : State) (m : Memory) : (s.setMem m).key = s.key := rfl
@[simp] theorem State.setMem_draws (s : State) (m : Memory) : (s.setMem m).draws = s.draws := rfl
@[simp] theorem State.setMem_schedule (s : State) (m : Memory) :
    (s.setMem m).schedule = s.schedule := rfl
@[simp] theorem State.setMem_taken (s : State) (m : Memory) : (s.setMem m).taken = s.taken := rfl
@[simp] theorem State.setMem_reg (s : State) (m : Memory) (x : Reg) :
    (s.setMem m).reg x = s.reg x := rfl
@[simp] theorem State.setMem_pressed (s : State) (m : Memory) (k : Key) :
    (s.setMem m).pressed k = s.pressed k := rfl

/-! ### `setDraws` -/

@[simp] theorem State.setDraws_v (s : State) (n : Nat) : (s.setDraws n).v = s.v := rfl
@[simp] theorem State.setDraws_i (s : State) (n : Nat) : (s.setDraws n).i = s.i := rfl
@[simp] theorem State.setDraws_pc (s : State) (n : Nat) : (s.setDraws n).pc = s.pc := rfl
@[simp] theorem State.setDraws_stack (s : State) (n : Nat) : (s.setDraws n).stack = s.stack := rfl
@[simp] theorem State.setDraws_dt (s : State) (n : Nat) : (s.setDraws n).dt = s.dt := rfl
@[simp] theorem State.setDraws_st (s : State) (n : Nat) : (s.setDraws n).st = s.st := rfl
@[simp] theorem State.setDraws_fb (s : State) (n : Nat) : (s.setDraws n).fb = s.fb := rfl
@[simp] theorem State.setDraws_mem (s : State) (n : Nat) : (s.setDraws n).mem = s.mem := rfl
@[simp] theorem State.setDraws_key (s : State) (n : Nat) : (s.setDraws n).key = s.key := rfl
@[simp] theorem State.setDraws_draws (s : State) (n : Nat) : (s.setDraws n).draws = n := rfl
@[simp] theorem State.setDraws_schedule (s : State) (n : Nat) :
    (s.setDraws n).schedule = s.schedule := rfl
@[simp] theorem State.setDraws_taken (s : State) (n : Nat) : (s.setDraws n).taken = s.taken := rfl
@[simp] theorem State.setDraws_reg (s : State) (n : Nat) (x : Reg) :
    (s.setDraws n).reg x = s.reg x := rfl
@[simp] theorem State.setDraws_pressed (s : State) (n : Nat) (k : Key) :
    (s.setDraws n).pressed k = s.pressed k := rfl

/-! ### `setSchedule` -/

@[simp] theorem State.setSchedule_v (s : State) (l : List Event) : (s.setSchedule l).v = s.v := rfl
@[simp] theorem State.setSchedule_i (s : State) (l : List Event) : (s.setSchedule l).i = s.i := rfl
@[simp] theorem State.setSchedule_pc (s : State) (l : List Event) :
    (s.setSchedule l).pc = s.pc := rfl
@[simp] theorem State.setSchedule_stack (s : State) (l : List Event) :
    (s.setSchedule l).stack = s.stack := rfl
@[simp] theorem State.setSchedule_dt (s : State) (l : List Event) :
    (s.setSchedule l).dt = s.dt := rfl
@[simp] theorem State.setSchedule_st (s : State) (l : List Event) :
    (s.setSchedule l).st = s.st := rfl
@[simp] theorem State.setSchedule_fb (s : State) (l : List Event) :
    (s.setSchedule l).fb = s.fb := rfl
@[simp] theorem State.setSchedule_mem (s : State) (l : List Event) :
    (s.setSchedule l).mem = s.mem := rfl
@[simp] theorem State.setSchedule_key (s : State) (l : List Event) :
    (s.setSchedule l).key = s.key := rfl
@[simp] theorem State.setSchedule_draws (s : State) (l : List Event) :
    (s.setSchedule l).draws = s.draws := rfl
@[simp] theorem State.setSchedule_schedule (s : State) (l : List Event) :
    (s.setSchedule l).schedule = l := rfl
@[simp] theorem State.setSchedule_taken (s : State) (l : List Event) :
    (s.setSchedule l).taken = s.taken := rfl
@[simp] theorem State.setSchedule_reg (s : State) (l : List Event) (x : Reg) :
    (s.setSchedule l).reg x = s.reg x := rfl
@[simp] theorem State.setSchedule_pressed (s : State) (l : List Event) (k : Key) :
    (s.setSchedule l).pressed k = s.pressed k := rfl

/-! ### `setTaken` -/

@[simp] theorem State.setTaken_v (s : State) (l : List Arch) : (s.setTaken l).v = s.v := rfl
@[simp] theorem State.setTaken_i (s : State) (l : List Arch) : (s.setTaken l).i = s.i := rfl
@[simp] theorem State.setTaken_pc (s : State) (l : List Arch) : (s.setTaken l).pc = s.pc := rfl
@[simp] theorem State.setTaken_stack (s : State) (l : List Arch) :
    (s.setTaken l).stack = s.stack := rfl
@[simp] theorem State.setTaken_dt (s : State) (l : List Arch) : (s.setTaken l).dt = s.dt := rfl
@[simp] theorem State.setTaken_st (s : State) (l : List Arch) : (s.setTaken l).st = s.st := rfl
@[simp] theorem State.setTaken_fb (s : State) (l : List Arch) : (s.setTaken l).fb = s.fb := rfl
@[simp] theorem State.setTaken_mem (s : State) (l : List Arch) : (s.setTaken l).mem = s.mem := rfl
@[simp] theorem State.setTaken_key (s : State) (l : List Arch) : (s.setTaken l).key = s.key := rfl
@[simp] theorem State.setTaken_draws (s : State) (l : List Arch) :
    (s.setTaken l).draws = s.draws := rfl
@[simp] theorem State.setTaken_schedule (s : State) (l : List Arch) :
    (s.setTaken l).schedule = s.schedule := rfl
@[simp] theorem State.setTaken_taken (s : State) (l : List Arch) : (s.setTaken l).taken = l := rfl
@[simp] theorem State.setTaken_reg (s : State) (l : List Arch) (x : Reg) :
    (s.setTaken l).reg x = s.reg x := rfl
@[simp] theorem State.setTaken_pressed (s : State) (l : List Arch) (k : Key) :
    (s.setTaken l).pressed k = s.pressed k := rfl

/-! ### `setReg` -/

@[simp] theorem State.setReg_i (s : State) (x : Reg) (b : Byte) : (s.setReg x b).i = s.i := rfl
@[simp] theorem State.setReg_pc (s : State) (x : Reg) (b : Byte) : (s.setReg x b).pc = s.pc := rfl
@[simp] theorem State.setReg_stack (s : State) (x : Reg) (b : Byte) :
    (s.setReg x b).stack = s.stack := rfl
@[simp] theorem State.setReg_dt (s : State) (x : Reg) (b : Byte) : (s.setReg x b).dt = s.dt := rfl
@[simp] theorem State.setReg_st (s : State) (x : Reg) (b : Byte) : (s.setReg x b).st = s.st := rfl
@[simp] theorem State.setReg_fb (s : State) (x : Reg) (b : Byte) : (s.setReg x b).fb = s.fb := rfl
@[simp] theorem State.setReg_mem (s : State) (x : Reg) (b : Byte) :
    (s.setReg x b).mem = s.mem := rfl
@[simp] theorem State.setReg_key (s : State) (x : Reg) (b : Byte) :
    (s.setReg x b).key = s.key := rfl
@[simp] theorem State.setReg_draws (s : State) (x : Reg) (b : Byte) :
    (s.setReg x b).draws = s.draws := rfl
@[simp] theorem State.setReg_schedule (s : State) (x : Reg) (b : Byte) :
    (s.setReg x b).schedule = s.schedule := rfl
@[simp] theorem State.setReg_taken (s : State) (x : Reg) (b : Byte) :
    (s.setReg x b).taken = s.taken := rfl
@[simp] theorem State.setReg_pressed (s : State) (x : Reg) (b : Byte) (k : Key) :
    (s.setReg x b).pressed k = s.pressed k := rfl

/-- A register read after a write: the written value, or the value before. -/
theorem State.setReg_reg (s : State) (x y : Reg) (b : Byte) :
    (s.setReg x b).reg y = if x = y then b else s.reg y := by
  simp only [State.reg, State.setReg, Vector.getElem_set, Fin.ext_iff]

@[simp] theorem State.setReg_reg_self (s : State) (x : Reg) (b : Byte) :
    (s.setReg x b).reg x = b := by
  simp [State.setReg_reg]

theorem State.setReg_reg_ne (s : State) {x y : Reg} (b : Byte) (h : x ≠ y) :
    (s.setReg x b).reg y = s.reg y := by
  simp [State.setReg_reg, h]

/-! ### `setKey` -/

@[simp] theorem State.setKey_v (s : State) (k : Key) (b : Bool) : (s.setKey k b).v = s.v := rfl
@[simp] theorem State.setKey_i (s : State) (k : Key) (b : Bool) : (s.setKey k b).i = s.i := rfl
@[simp] theorem State.setKey_pc (s : State) (k : Key) (b : Bool) : (s.setKey k b).pc = s.pc := rfl
@[simp] theorem State.setKey_stack (s : State) (k : Key) (b : Bool) :
    (s.setKey k b).stack = s.stack := rfl
@[simp] theorem State.setKey_dt (s : State) (k : Key) (b : Bool) : (s.setKey k b).dt = s.dt := rfl
@[simp] theorem State.setKey_st (s : State) (k : Key) (b : Bool) : (s.setKey k b).st = s.st := rfl
@[simp] theorem State.setKey_fb (s : State) (k : Key) (b : Bool) : (s.setKey k b).fb = s.fb := rfl
@[simp] theorem State.setKey_mem (s : State) (k : Key) (b : Bool) :
    (s.setKey k b).mem = s.mem := rfl
@[simp] theorem State.setKey_draws (s : State) (k : Key) (b : Bool) :
    (s.setKey k b).draws = s.draws := rfl
@[simp] theorem State.setKey_schedule (s : State) (k : Key) (b : Bool) :
    (s.setKey k b).schedule = s.schedule := rfl
@[simp] theorem State.setKey_taken (s : State) (k : Key) (b : Bool) :
    (s.setKey k b).taken = s.taken := rfl
@[simp] theorem State.setKey_reg (s : State) (k : Key) (b : Bool) (x : Reg) :
    (s.setKey k b).reg x = s.reg x := rfl

/-- A key read after a `SetKey`: the new state of that key, or the state before (R187). -/
theorem State.setKey_pressed (s : State) (k j : Key) (b : Bool) :
    (s.setKey k b).pressed j = if k = j then b else s.pressed j := by
  simp only [State.pressed, State.setKey, Vector.getElem_set, Fin.ext_iff]

/-! ### `setArch` -/

@[simp] theorem State.setArch_toArch (s : State) (a : Arch) : (s.setArch a).toArch = a := rfl

@[simp] theorem State.setArch_draws (s : State) (a : Arch) : (s.setArch a).draws = s.draws := rfl
@[simp] theorem State.setArch_schedule (s : State) (a : Arch) :
    (s.setArch a).schedule = s.schedule := rfl
@[simp] theorem State.setArch_taken (s : State) (a : Arch) : (s.setArch a).taken = s.taken := rfl

/-! ### The architectural state under an update of a field of the model's own -/

@[simp] theorem State.setDraws_toArch (s : State) (n : Nat) : (s.setDraws n).toArch = s.toArch := rfl
@[simp] theorem State.setSchedule_toArch (s : State) (l : List Event) :
    (s.setSchedule l).toArch = s.toArch := rfl
@[simp] theorem State.setTaken_toArch (s : State) (l : List Arch) :
    (s.setTaken l).toArch = s.toArch := rfl

/-! ### The parameters, which no update writes -/

@[simp] theorem State.setI_params (s : State) (w : Word) : (s.setI w).params = s.params := rfl
@[simp] theorem State.setPc_params (s : State) (w : Word) : (s.setPc w).params = s.params := rfl
@[simp] theorem State.setStack_params (s : State) (l : List Word) :
    (s.setStack l).params = s.params := rfl
@[simp] theorem State.setDt_params (s : State) (b : Byte) : (s.setDt b).params = s.params := rfl
@[simp] theorem State.setSt_params (s : State) (b : Byte) : (s.setSt b).params = s.params := rfl
@[simp] theorem State.setFb_params (s : State) (f : Frame) : (s.setFb f).params = s.params := rfl
@[simp] theorem State.setMem_params (s : State) (m : Memory) : (s.setMem m).params = s.params := rfl
@[simp] theorem State.setDraws_params (s : State) (n : Nat) :
    (s.setDraws n).params = s.params := rfl
@[simp] theorem State.setSchedule_params (s : State) (l : List Event) :
    (s.setSchedule l).params = s.params := rfl
@[simp] theorem State.setTaken_params (s : State) (l : List Arch) :
    (s.setTaken l).params = s.params := rfl
@[simp] theorem State.setReg_params (s : State) (x : Reg) (b : Byte) :
    (s.setReg x b).params = s.params := rfl
@[simp] theorem State.setKey_params (s : State) (k : Key) (b : Bool) :
    (s.setKey k b).params = s.params := rfl
@[simp] theorem State.setArch_params (s : State) (a : Arch) : (s.setArch a).params = s.params := rfl
@[simp] theorem State.advance_params (s : State) : s.advance.params = s.params := rfl

/-! ### Reading a byte of memory after an update -/

@[simp] theorem State.setI_read (s : State) (w : Word) (a : Addr) :
    (s.setI w).read a = s.read a := rfl
@[simp] theorem State.setPc_read (s : State) (w : Word) (a : Addr) :
    (s.setPc w).read a = s.read a := rfl
@[simp] theorem State.setStack_read (s : State) (l : List Word) (a : Addr) :
    (s.setStack l).read a = s.read a := rfl
@[simp] theorem State.setDt_read (s : State) (b : Byte) (a : Addr) :
    (s.setDt b).read a = s.read a := rfl
@[simp] theorem State.setSt_read (s : State) (b : Byte) (a : Addr) :
    (s.setSt b).read a = s.read a := rfl
@[simp] theorem State.setFb_read (s : State) (f : Frame) (a : Addr) :
    (s.setFb f).read a = s.read a := rfl
@[simp] theorem State.setMem_read (s : State) (m : Memory) (a : Addr) :
    (s.setMem m).read a = m.read s.params.font a := rfl
@[simp] theorem State.setDraws_read (s : State) (n : Nat) (a : Addr) :
    (s.setDraws n).read a = s.read a := rfl
@[simp] theorem State.setSchedule_read (s : State) (l : List Event) (a : Addr) :
    (s.setSchedule l).read a = s.read a := rfl
@[simp] theorem State.setTaken_read (s : State) (l : List Arch) (a : Addr) :
    (s.setTaken l).read a = s.read a := rfl
@[simp] theorem State.setReg_read (s : State) (x : Reg) (b : Byte) (a : Addr) :
    (s.setReg x b).read a = s.read a := rfl
@[simp] theorem State.setKey_read (s : State) (k : Key) (b : Bool) (a : Addr) :
    (s.setKey k b).read a = s.read a := rfl
@[simp] theorem State.setArch_read (s : State) (a : Arch) (c : Addr) :
    (s.setArch a).read c = a.mem.read s.params.font c := rfl
@[simp] theorem State.advance_read (s : State) (a : Addr) : s.advance.read a = s.read a := rfl

/-! ### The default advance and the skip -/

@[simp] theorem State.advance_v (s : State) : (s.advance).v = s.v := rfl
@[simp] theorem State.advance_i (s : State) : (s.advance).i = s.i := rfl
@[simp] theorem State.advance_stack (s : State) : (s.advance).stack = s.stack := rfl
@[simp] theorem State.advance_dt (s : State) : (s.advance).dt = s.dt := rfl
@[simp] theorem State.advance_st (s : State) : (s.advance).st = s.st := rfl
@[simp] theorem State.advance_fb (s : State) : (s.advance).fb = s.fb := rfl
@[simp] theorem State.advance_mem (s : State) : (s.advance).mem = s.mem := rfl
@[simp] theorem State.advance_key (s : State) : (s.advance).key = s.key := rfl
@[simp] theorem State.advance_draws (s : State) : (s.advance).draws = s.draws := rfl
@[simp] theorem State.advance_schedule (s : State) : (s.advance).schedule = s.schedule := rfl
@[simp] theorem State.advance_taken (s : State) : (s.advance).taken = s.taken := rfl
@[simp] theorem State.advance_reg (s : State) (x : Reg) : s.advance.reg x = s.reg x := rfl
@[simp] theorem State.advance_pressed (s : State) (k : Key) :
    s.advance.pressed k = s.pressed k := rfl
@[simp] theorem State.advance_pc (s : State) : s.advance.pc = s.pc + 2#16 := rfl

/-- The default advance adds 2 modulo 65536 (R82). -/
theorem State.advance_pc_toNat (s : State) : s.advance.pc.toNat = (s.pc.toNat + 2) % 65536 := by
  simp [BitVec.toNat_add]

/-- A skip writes `pc` alone: 4 further where the condition holds, else 2 further (43_skip.md). -/
theorem State.skipIf_eq (s : State) (c : Bool) :
    s.skipIf c = s.setPc (s.pc + if c then 4#16 else 2#16) := by
  cases c
  · rfl
  · have h : s.npc + 2#16 = s.pc + 4#16 := by
      simp only [State.npc, BitVec.add_assoc]; rfl
    simp [State.skipIf, h]

end Sys2Proof.Machine
end

