-- ==== Sys2Proof/Laws/Memory.lean ====
section
/-! SUPPORT. The laws of memory: a read after a write, a write leaves every other address alone, and every
memory operation keeps the canonical form. -/

namespace Sys2Proof.Machine

variable {font : Font}

/-! ### Looking up a key -/

theorem Memory.remove_cons (k : Nat) (c : Host.Cell) (rest : Memory) :
    Memory.remove k (c :: rest) = if c.1 = k then rest.remove k else c :: rest.remove k := by
  by_cases h : c.1 = k <;> simp [Memory.remove, h]

theorem Memory.byteAt_remove_self (k : Nat) (m : Memory) :
    (m.remove k).byteAt font k = Memory.unlisted font k := by
  induction m with
  | nil => rfl
  | cons c rest ih =>
    rw [Memory.remove_cons]
    split
    · exact ih
    · rename_i h; simp [Memory.byteAt, h, ih]

theorem Memory.byteAt_remove_ne {k j : Nat} (h : j ≠ k) (m : Memory) :
    (m.remove k).byteAt font j = m.byteAt font j := by
  induction m with
  | nil => rfl
  | cons c rest ih =>
    rw [Memory.remove_cons]
    split
    · have hj : c.1 ≠ j := by omega
      simp [Memory.byteAt, hj, ih]
    · simp [Memory.byteAt, ih]

theorem Memory.byteAt_place_self (k : Nat) (b : Byte) {m : Memory} (h : ∀ c ∈ m, c.1 ≠ k) :
    (m.place k b).byteAt font k = b := by
  induction m with
  | nil => simp [Memory.place, Memory.byteAt]
  | cons c rest ih =>
    have hc : c.1 ≠ k := h c (by simp)
    have hr : ∀ c ∈ rest, c.1 ≠ k := fun d hd => h d (by simp [hd])
    simp only [Memory.place]
    split
    · simp [Memory.byteAt]
    · simp [Memory.byteAt, hc, ih hr]

theorem Memory.byteAt_place_ne {k j : Nat} (h : j ≠ k) (b : Byte) (m : Memory) :
    (m.place k b).byteAt font j = m.byteAt font j := by
  induction m with
  | nil => simp [Memory.place, Memory.byteAt, Ne.symm h]
  | cons c rest ih =>
    simp only [Memory.place]
    split
    · simp [Memory.byteAt, Ne.symm h]
    · simp [Memory.byteAt, ih]

theorem Memory.not_mem_remove (k : Nat) (m : Memory) : ∀ c ∈ m.remove k, c.1 ≠ k := by
  intro c hc
  simpa using (List.mem_filter.mp hc).2

/-! ### Reading after writing -/

/-- A read at the written address gives the written byte (R8, R49). -/
@[simp] theorem Memory.read_write_self (m : Memory) (a : Addr) (b : Byte) :
    (m.write font a b).read font a = b := by
  unfold Memory.read Memory.write
  split
  · rename_i h; rw [Memory.byteAt_remove_self, h]
  · exact Memory.byteAt_place_self _ _ (Memory.not_mem_remove _ _)

/-- A write leaves every other address alone (R8). -/
theorem Memory.read_write_ne {a c : Addr} (h : c ≠ a) (m : Memory) (b : Byte) :
    (m.write font a b).read font c = m.read font c := by
  have hn : c.toNat ≠ a.toNat := fun e => h (BitVec.eq_of_toNat_eq e)
  unfold Memory.read Memory.write
  split
  · exact Memory.byteAt_remove_ne hn m
  · rw [Memory.byteAt_place_ne hn, Memory.byteAt_remove_ne hn]

/-- Everything one write does to what a read gives. -/
theorem Memory.read_write (m : Memory) (a c : Addr) (b : Byte) :
    (m.write font a b).read font c = if c = a then b else m.read font c := by
  split
  · rename_i h; rw [h, Memory.read_write_self]
  · rename_i h; exact Memory.read_write_ne h m b

/-- A copy of bytes leaves every address outside it alone (R201). -/
theorem Memory.read_writeAll_ne (bs : List Byte) (m : Memory) (a : Nat) (c : Addr)
    (hl : a + bs.length ≤ 4096) (hc : c.toNat < a ∨ a + bs.length ≤ c.toNat) :
    (m.writeAll font a bs).read font c = m.read font c := by
  induction bs generalizing m a with
  | nil => rfl
  | cons b bs ih =>
    simp only [Memory.writeAll, List.length_cons] at *
    have hne : c ≠ BitVec.ofNat 12 a := by
      intro e; subst e; simp only [BitVec.toNat_ofNat] at hc; omega
    rw [ih _ _ (by omega) (by omega), Memory.read_write_ne hne]

/-- A copy of bytes puts each at its address (R201). -/
theorem Memory.read_writeAll (bs : List Byte) (m : Memory) (a j : Nat) (h : j < bs.length)
    (hl : a + bs.length ≤ 4096) :
    (m.writeAll font a bs).read font (BitVec.ofNat 12 (a + j)) = bs[j] := by
  induction bs generalizing m a j with
  | nil => simp at h
  | cons b bs ih =>
    have hb : (b :: bs).length = bs.length + 1 := rfl
    simp only [Memory.writeAll]
    cases j with
    | zero =>
      rw [Memory.read_writeAll_ne _ _ _ _ (by omega) (by simp only [BitVec.toNat_ofNat]; omega)]
      simp
    | succ j =>
      rw [show a + (j + 1) = a + 1 + j by omega, ih _ _ j (by omega) (by omega)]
      simp

/-! ### The canonical form -/

theorem Memory.wfFrom_mono {lo lo' : Nat} (h : lo' ≤ lo) {m : Memory} (hm : m.wfFrom font lo = true) :
    m.wfFrom font lo' = true := by
  cases m with
  | nil => rfl
  | cons c rest =>
    simp only [Memory.wfFrom, Bool.and_eq_true, decide_eq_true_eq] at hm ⊢
    exact ⟨⟨⟨by omega, hm.1.1.2⟩, hm.1.2⟩, hm.2⟩

theorem Memory.wfFrom_remove (k : Nat) {lo : Nat} {m : Memory} (hm : m.wfFrom font lo = true) :
    (m.remove k).wfFrom font lo = true := by
  induction m generalizing lo with
  | nil => rfl
  | cons c rest ih =>
    simp only [Memory.wfFrom, Bool.and_eq_true, decide_eq_true_eq] at hm
    have hr := ih hm.2
    rw [Memory.remove_cons]
    split
    · exact Memory.wfFrom_mono (by omega) hr
    · simp only [Memory.wfFrom, Bool.and_eq_true, decide_eq_true_eq]
      exact ⟨hm.1, hr⟩

theorem Memory.wfFrom_place {k : Nat} {b : Byte} (hk : k < Config.memSize)
    (hb : b ≠ Memory.unlisted font k) {lo : Nat} (hlo : lo ≤ k) {m : Memory}
    (hne : ∀ c ∈ m, c.1 ≠ k) (hm : m.wfFrom font lo = true) : (m.place k b).wfFrom font lo = true := by
  induction m generalizing lo with
  | nil => simp [Memory.place, Memory.wfFrom, hk, hb, hlo]
  | cons c rest ih =>
    have hc : c.1 ≠ k := hne c (by simp)
    have hr : ∀ c ∈ rest, c.1 ≠ k := fun d hd => hne d (by simp [hd])
    simp only [Memory.wfFrom, Bool.and_eq_true, decide_eq_true_eq] at hm
    simp only [Memory.place]
    split
    · simp only [Memory.wfFrom, Bool.and_eq_true, decide_eq_true_eq, bne_iff_ne, ne_eq]
      exact ⟨⟨⟨hlo, hk⟩, hb⟩, ⟨⟨by omega, hm.1.1.2⟩, by simpa using hm.1.2⟩, hm.2⟩
    · simp only [Memory.wfFrom, Bool.and_eq_true, decide_eq_true_eq]
      exact ⟨hm.1, ih (by omega) hr hm.2⟩

/-- A write keeps the canonical form. -/
theorem Memory.wf_write {m : Memory} (hm : m.wf font = true) (a : Addr) (b : Byte) :
    (m.write font a b).wf font = true := by
  unfold Memory.wf Memory.write
  split
  · exact Memory.wfFrom_remove _ hm
  · rename_i h
    exact Memory.wfFrom_place a.isLt h (Nat.zero_le _) (Memory.not_mem_remove _ _)
      (Memory.wfFrom_remove _ hm)

/-- A copy of bytes keeps the canonical form. -/
theorem Memory.wf_writeAll (bs : List Byte) {m : Memory} (hm : m.wf font = true) (a : Nat) :
    (m.writeAll font a bs).wf font = true := by
  induction bs generalizing m a with
  | nil => exact hm
  | cons b bs ih => exact ih (Memory.wf_write hm _ _) _

/-- Reset memory has the canonical form. -/
theorem Memory.wf_reset (p : Params) : (State.resetOf p).mem.wf p.font = true := rfl

end Sys2Proof.Machine
end

