-- ==== Sys2Proof/Laws/Ops.lean ====
section
/-! SUPPORT. For each shared operation, one lemma that says once everything it can do: the cells of the
framebuffer, the effective address, the byte store and load, the block transfers, the stack, the scan
of the keys, the fetch and the arithmetic. -/

namespace Sys2Proof.Machine

/-! ### Framebuffer cells -/

/-- A cell after a flip: the flipped cell is inverted, every other one is as before. -/
theorem Frame.cell_flip (f : Frame) (x px : Fin 64) (y py : Fin 32) :
    (Frame.flip f x y).cell px py = (Frame.cell f px py ^^ (decide (px = x) && decide (py = y))) := by
  unfold Frame.flip Frame.cell
  by_cases hy : y = py
  · subst hy
    have hx : (px.val = x.val) = (px = x) := propext Fin.val_inj
    simp [hx]
  · have hv : y.val ≠ py.val := fun e => hy (Fin.ext e)
    simp [hv, Ne.symm hy]

/-- A blank display has every cell 0 (R100). -/
@[simp] theorem Frame.cell_blank (x : Fin 64) (y : Fin 32) : Frame.cell Frame.blank x y = false := by
  simp [Frame.cell, Frame.blank]

/-! ### Effective addresses -/

/-- The effective address is the index plus the offset, modulo 4096 (R45). -/
theorem State.ea_toNat (s : State) (k : Nat) : (s.ea k).toNat = (s.i.toNat + k) % 4096 := rfl

/-- The bytes of one access are at distinct addresses (R47). -/
theorem State.ea_inj (s : State) {j k : Nat} (hj : j < 4096) (hk : k < 4096)
    (h : s.ea j = s.ea k) : j = k := by
  have := congrArg BitVec.toNat h
  simp only [State.ea_toNat] at this
  omega

/-- The effective address depends on the index register alone. -/
theorem State.ea_congr {s t : State} (h : t.i = s.i) (k : Nat) : t.ea k = s.ea k := by
  simp [State.ea, h]

@[simp] theorem State.setReg_ea (s : State) (x : Reg) (b : Byte) (k : Nat) :
    (s.setReg x b).ea k = s.ea k := rfl
@[simp] theorem State.setMem_ea (s : State) (m : Memory) (k : Nat) : (s.setMem m).ea k = s.ea k := rfl
@[simp] theorem State.store_ea (s : State) (j k : Nat) (b : Byte) : (s.store j b).ea k = s.ea k := rfl
@[simp] theorem State.setReg_load (s : State) (x : Reg) (b : Byte) (k : Nat) :
    (s.setReg x b).load k = s.load k := rfl

/-! ### Stores -/

/-- Writing a byte changes memory alone (R8). -/
theorem State.write_eq (s : State) (a : Addr) (b : Byte) :
    s.write a b = s.setMem (s.mem.write s.params.font a b) := rfl

@[simp] theorem State.write_v (s : State) (a : Addr) (b : Byte) :
    (s.write a b).v = s.v := rfl
@[simp] theorem State.write_i (s : State) (a : Addr) (b : Byte) :
    (s.write a b).i = s.i := rfl
@[simp] theorem State.write_pc (s : State) (a : Addr) (b : Byte) :
    (s.write a b).pc = s.pc := rfl
@[simp] theorem State.write_stack (s : State) (a : Addr) (b : Byte) :
    (s.write a b).stack = s.stack := rfl
@[simp] theorem State.write_dt (s : State) (a : Addr) (b : Byte) :
    (s.write a b).dt = s.dt := rfl
@[simp] theorem State.write_st (s : State) (a : Addr) (b : Byte) :
    (s.write a b).st = s.st := rfl
@[simp] theorem State.write_fb (s : State) (a : Addr) (b : Byte) :
    (s.write a b).fb = s.fb := rfl
@[simp] theorem State.write_key (s : State) (a : Addr) (b : Byte) :
    (s.write a b).key = s.key := rfl
@[simp] theorem State.write_draws (s : State) (a : Addr) (b : Byte) :
    (s.write a b).draws = s.draws := rfl
@[simp] theorem State.write_schedule (s : State) (a : Addr) (b : Byte) :
    (s.write a b).schedule = s.schedule := rfl
@[simp] theorem State.write_taken (s : State) (a : Addr) (b : Byte) :
    (s.write a b).taken = s.taken := rfl
@[simp] theorem State.write_params (s : State) (a : Addr) (b : Byte) :
    (s.write a b).params = s.params := rfl
@[simp] theorem State.write_reg (s : State) (a : Addr) (b : Byte) (x : Reg) :
    (s.write a b).reg x = s.reg x := rfl
@[simp] theorem State.write_pressed (s : State) (a : Addr) (b : Byte) (k : Key) :
    (s.write a b).pressed k = s.pressed k := rfl
@[simp] theorem State.write_ea (s : State) (a : Addr) (b : Byte) (k : Nat) :
    (s.write a b).ea k = s.ea k := rfl

/-- What writing a byte does to the bytes of memory (R8). -/
theorem State.write_read (s : State) (a c : Addr) (b : Byte) :
    (s.write a b).read c = if c = a then b else s.read c :=
  Memory.read_write _ _ _ _

/-- Writing a byte keeps the canonical form of memory. -/
theorem State.write_wf {s : State} (h : s.memWf = true) (a : Addr) (b : Byte) :
    (s.write a b).memWf = true :=
  Memory.wf_write h _ _

/-- A store changes memory alone, and in it the byte at the effective address (R8). -/
theorem State.store_eq (s : State) (k : Nat) (b : Byte) :
    s.store k b = s.setMem (s.mem.write s.params.font (s.ea k) b) := rfl

/-- What a store does to a byte of memory (R8, R45). -/
theorem State.store_read (s : State) (k : Nat) (b : Byte) (a : Addr) :
    (s.store k b).read a = if a = s.ea k then b else s.read a :=
  State.write_read _ _ _ _

/-- A store keeps the canonical form of memory. -/
theorem State.store_wf {s : State} (h : s.memWf = true) (k : Nat) (b : Byte) :
    (s.store k b).memWf = true :=
  State.write_wf h _ _

/-- One more register stored (R154). -/
theorem State.storeRegs_succ (s : State) (n : Nat) :
    s.storeRegs (n + 1) = (s.storeRegs n).store n ((s.storeRegs n).reg (loopReg n)) := by
  simp [State.storeRegs, List.range_succ]

/-- The block store changes memory alone (R154). -/
theorem State.storeRegs_eq (s : State) (n : Nat) :
    s.storeRegs n = s.setMem (s.storeRegs n).mem := by
  induction n with
  | zero => rfl
  | succ n ih => rw [State.storeRegs_succ, State.store_eq, ih]; rfl

@[simp] theorem State.storeRegs_params (s : State) (n : Nat) : (s.storeRegs n).params = s.params := by
  rw [State.storeRegs_eq]; rfl

@[simp] theorem State.storeRegs_reg (s : State) (n : Nat) (x : Reg) :
    (s.storeRegs n).reg x = s.reg x := by
  rw [State.storeRegs_eq]; rfl

@[simp] theorem State.storeRegs_ea (s : State) (n k : Nat) : (s.storeRegs n).ea k = s.ea k := by
  rw [State.storeRegs_eq]; rfl

/-- The block store keeps the canonical form of memory. -/
theorem State.storeRegs_wf {s : State} (h : s.memWf = true) (n : Nat) :
    (s.storeRegs n).memWf = true := by
  induction n with
  | zero => exact h
  | succ n ih => rw [State.storeRegs_succ]; exact State.store_wf ih _ _

/-- A byte that is none of those stored reads as before (R154). -/
theorem State.storeRegs_read_ne (s : State) (n : Nat) {a : Addr} (h : ∀ k < n, a ≠ s.ea k) :
    (s.storeRegs n).read a = s.read a := by
  induction n with
  | zero => rfl
  | succ n ih =>
    rw [State.storeRegs_succ, State.store_read, State.storeRegs_ea,
      if_neg (h n (Nat.lt_succ_self n)), ih fun k hk => h k (Nat.lt_succ_of_lt hk)]

/-- Each register of the block is stored at its address (R154). -/
theorem State.storeRegs_read (s : State) {n k : Nat} (hn : n ≤ 4096) (hk : k < n) :
    (s.storeRegs n).read (s.ea k) = s.reg (loopReg k) := by
  induction n with
  | zero => omega
  | succ n ih =>
    rw [State.storeRegs_succ, State.store_read, State.storeRegs_ea, State.storeRegs_reg]
    split
    · rename_i h
      rw [s.ea_inj (by omega) (by omega) h]
    · rename_i h
      have : k ≠ n := fun e => h (by rw [e])
      exact ih (by omega) (by omega)

/-! ### Stack -/

/-- The stack is full with STACK_DEPTH entries or more, and never where it is `unbounded` (R24). -/
theorem State.full_iff (s : State) :
    s.full = true ↔ ∃ d, s.params.depth = some d ∧ d ≤ s.stack.length := by
  unfold State.full stackFull State.sp
  cases s.params.depth <;> simp

/-- A stack that is not full has room for one more entry (R24). -/
theorem State.not_full_iff (s : State) :
    s.full = false ↔ stackFits s.params.depth (s.stack.length + 1) := by
  unfold State.full stackFull State.sp stackFits
  cases s.params.depth <;> simp

/-- The entry on top of a stack that ends in it (R24). -/
theorem State.top_of_append {s : State} {l : List Word} {w : Word} (h : s.stack = l ++ [w]) :
    s.top = some w := by
  simp [State.top, h]

/-- An empty stack has no entry on top (R24). -/
theorem State.top_none (s : State) : s.top = none ↔ s.stack = [] := by
  simp [State.top]

/-! ### Loads -/

/-- One more register loaded (R155). -/
theorem State.loadRegs_succ (s : State) (n : Nat) :
    s.loadRegs (n + 1) = (s.loadRegs n).setReg (loopReg n) ((s.loadRegs n).load n) := by
  simp [State.loadRegs, List.range_succ]

/-- The block load changes general registers alone (R155). -/
theorem State.loadRegs_eq (s : State) (n : Nat) : s.loadRegs n = { s with v := (s.loadRegs n).v } := by
  induction n with
  | zero => rfl
  | succ n ih => rw [State.loadRegs_succ, ih]; rfl

@[simp] theorem State.loadRegs_params (s : State) (n : Nat) : (s.loadRegs n).params = s.params := by
  rw [State.loadRegs_eq]

@[simp] theorem State.loadRegs_load (s : State) (n k : Nat) : (s.loadRegs n).load k = s.load k := by
  rw [State.loadRegs_eq]; rfl

/-- What the block load leaves in a register: the byte at its address, or the value before (R155). -/
theorem State.loadRegs_reg (s : State) {n : Nat} (hn : n ≤ 16) (r : Reg) :
    (s.loadRegs n).reg r = if r.val < n then s.load r.val else s.reg r := by
  induction n with
  | zero => simp [State.loadRegs]
  | succ n ih =>
    have hl : (loopReg n).val = n := Nat.mod_eq_of_lt (by omega)
    rw [State.loadRegs_succ, State.setReg_reg, State.loadRegs_load, ih (by omega)]
    by_cases h : loopReg n = r
    · have hr : r.val = n := by rw [← h, hl]
      simp [h, hr]
    · have hr : r.val ≠ n := fun e => h (Fin.ext (by rw [hl, e]))
      have : r.val < n + 1 ↔ r.val < n := by omega
      simp [h, this]

/-! ### Keys -/

/-- No key is found exactly when no key is pressed (R162). -/
theorem State.lowestKey_none (s : State) : s.lowestKey = none ↔ ∀ k, s.pressed k = false := by
  have hall : ∀ k : Key, k ∈ keyCodes := by decide
  simp [State.lowestKey, List.find?_eq_none, hall]

/-- The key found is pressed, and no lower key is (R162). -/
theorem State.lowestKey_some {s : State} {k : Key} (h : s.lowestKey = some k) :
    s.pressed k = true ∧ ∀ j < k, s.pressed j = false := by
  obtain ⟨hk, as, bs, hl, has⟩ := List.find?_eq_some_iff_append.mp h
  refine ⟨hk, fun j hj => ?_⟩
  have hsorted : keyCodes.Pairwise (· < ·) := by decide
  have hmem : j ∈ keyCodes := (by decide : ∀ j : Key, j ∈ keyCodes) j
  rw [hl] at hsorted hmem
  rcases List.mem_append.mp hmem with hj' | hj'
  · simpa using has j hj'
  · rcases List.mem_cons.mp hj' with rfl | hj''
    · exact absurd hj (lt_irrefl _)
    · have := (List.pairwise_append.mp hsorted).2.1
      exact absurd hj (lt_asymm ((List.pairwise_cons.mp this).1 j hj''))

/-! ### Fetch -/

/-- The fetch fails exactly when `pc >= 0x0FFF` (R46, R81). -/
theorem State.fetch_none (s : State) : s.fetch = none ↔ 0x0FFF ≤ s.pc.toNat := by
  unfold State.fetch fetchable
  split <;> rename_i h <;> simp only [decide_eq_true_eq, Config.memSize] at h <;> simp <;> omega

/-- What the fetch reads (R42, R80). -/
theorem State.fetch_some {s : State} (h : s.pc.toNat < 0x0FFF) :
    s.fetch = some (wordOfBytes (s.read (fetchAddr s.pc 0)) (s.read (fetchAddr s.pc 1))) := by
  have : fetchable s.pc = true := by simp [fetchable, Config.memSize]; omega
  simp [State.fetch, this]

/-! ### Arithmetic -/

theorem addBytes_toNat (a b : Byte) : (addBytes a b).toNat = (a.toNat + b.toNat) % 256 := by
  simp [addBytes]

theorem subBytes_toNat (a b : Byte) : (subBytes a b).toNat = (a.toNat + 256 - b.toNat) % 256 := by
  simp [subBytes]

theorem shrByte_toNat (a : Byte) : (shrByte a).toNat = a.toNat / 2 := by
  simp only [shrByte, BitVec.toNat_ofNat]; omega

theorem shlByte_toNat (a : Byte) : (shlByte a).toNat = a.toNat * 2 % 256 := by
  simp [shlByte]

theorem countDown_toNat (t : Byte) : (countDown t).toNat = t.toNat - 1 := by
  simp only [countDown, BitVec.toNat_ofNat]; omega

end Sys2Proof.Machine
end

