-- ==== Sys2Proof/Laws/Draw.lean ====
section
/-! SUPPORT. What drawing one row of a sprite does to a cell and to the collision (spec 41_display.md
R101). -/

namespace Sys2Proof.Machine

/-- The eight columns of a row are distinct (R101: 8 < 64). -/
theorem pixelX_inj (a : Byte) {c d : Nat} (hc : c < 64) (hd : d < 64) (h : pixelX a c = pixelX a d) :
    c = d := by
  have := congrArg Fin.val h
  simp only [pixelX, Fin.ofNat] at this
  omega

/-- The rows of a sprite are distinct (R101: n <= 15 < 32). -/
theorem pixelY_inj (b : Byte) {r q : Nat} (hr : r < 32) (hq : q < 32) (h : pixelY b r = pixelY b q) :
    r = q := by
  have := congrArg Fin.val h
  simp only [pixelY, Fin.ofNat] at this
  omega

/-- One of the first `n` columns of the sprite byte `row`, drawn as sprite row `r` at `a`, `b`, has a 1
bit on the cell (R101). -/
def rowCovers (a b : Byte) (r : Nat) (row : Byte) (n : Nat) (px : Fin 64) (py : Fin 32) : Prop :=
  ∃ c < n, spriteBit row c = true ∧ pixelX a c = px ∧ pixelY b r = py

/-- A hit flips its cell and notes whether it was set (R101). -/
theorem Canvas.hit_cell (cv : Canvas) (x px : Fin 64) (y py : Fin 32) :
    (cv.hit x y).fb.cell px py = (cv.fb.cell px py ^^ (decide (px = x) && decide (py = y))) :=
  Frame.cell_flip _ _ _ _ _

/-- The first `n` columns of one sprite row. -/
def Canvas.drawCols (cv : Canvas) (a b : Byte) (r : Nat) (row : Byte) (n : Nat) : Canvas :=
  (List.range n).foldl
    (fun cv c => if spriteBit row c then cv.hit (pixelX a c) (pixelY b r) else cv) cv

theorem Canvas.drawRow_eq (cv : Canvas) (a b : Byte) (r : Nat) (row : Byte) :
    cv.drawRow a b r row = cv.drawCols a b r row 8 := rfl

theorem Canvas.drawCols_succ (cv : Canvas) (a b : Byte) (r : Nat) (row : Byte) (n : Nat) :
    cv.drawCols a b r row (n + 1) =
      if spriteBit row n then (cv.drawCols a b r row n).hit (pixelX a n) (pixelY b r)
      else cv.drawCols a b r row n := by
  simp [Canvas.drawCols, List.range_succ]

/-- A further column covers what the columns before cover, and its own cell where its bit is 1. -/
theorem rowCovers_succ (a b : Byte) (r : Nat) (row : Byte) (n : Nat) (px : Fin 64) (py : Fin 32) :
    rowCovers a b r row (n + 1) px py ↔
      rowCovers a b r row n px py ∨
        (spriteBit row n = true ∧ pixelX a n = px ∧ pixelY b r = py) := by
  constructor
  · rintro ⟨c, hc, h⟩
    by_cases e : c = n
    · exact .inr (e ▸ h)
    · exact .inl ⟨c, by omega, h⟩
  · rintro (⟨c, hc, h⟩ | h)
    · exact ⟨c, by omega, h⟩
    · exact ⟨n, by omega, h⟩

/-- A new column's cell is not covered by the columns before it. -/
theorem rowCovers_fresh (a b : Byte) (r : Nat) (row : Byte) {n : Nat} (hn : n < 64) :
    ¬ rowCovers a b r row n (pixelX a n) (pixelY b r) := by
  rintro ⟨c, hc, -, hx, -⟩
  have := pixelX_inj a (by omega) hn hx
  omega

open Classical in
/-- A cell after the first `n` columns of a row: inverted where the row covers it (R101). -/
theorem Canvas.drawCols_cell (cv : Canvas) (a b : Byte) (r : Nat) (row : Byte) {n : Nat} (hn : n ≤ 64)
    (px : Fin 64) (py : Fin 32) :
    (cv.drawCols a b r row n).fb.cell px py =
      (cv.fb.cell px py ^^ decide (rowCovers a b r row n px py)) := by
  induction n with
  | zero => simp [Canvas.drawCols, rowCovers]
  | succ n ih =>
    have ih := ih (by omega)
    rw [Canvas.drawCols_succ]
    split
    · rename_i hb
      rw [Canvas.hit_cell, ih]
      by_cases hc : px = pixelX a n ∧ py = pixelY b r
      · obtain ⟨rfl, rfl⟩ := hc
        have hf := rowCovers_fresh a b r row (n := n) (by omega)
        have hs : rowCovers a b r row (n + 1) (pixelX a n) (pixelY b r) :=
          (rowCovers_succ ..).mpr (.inr ⟨hb, rfl, rfl⟩)
        simp [hf, hs]
      · have hs : rowCovers a b r row (n + 1) px py ↔ rowCovers a b r row n px py := by
          rw [rowCovers_succ]
          exact or_iff_left fun h => hc ⟨h.2.1.symm, h.2.2.symm⟩
        have hd : (decide (px = pixelX a n) && decide (py = pixelY b r)) = false := by
          simpa using hc
        simp [hs, hd]
    · rename_i hb
      have hs : rowCovers a b r row (n + 1) px py ↔ rowCovers a b r row n px py := by
        rw [rowCovers_succ]
        exact or_iff_left fun h => hb h.1
      simp [ih, hs]

/-- The collision after the first `n` columns of a row: the one before, or a covered cell that was
set (R101). -/
theorem Canvas.drawCols_collision (cv : Canvas) (a b : Byte) (r : Nat) (row : Byte) {n : Nat}
    (hn : n ≤ 64) :
    (cv.drawCols a b r row n).collision = true ↔
      cv.collision = true ∨
        ∃ px py, rowCovers a b r row n px py ∧ cv.fb.cell px py = true := by
  induction n with
  | zero => simp [Canvas.drawCols, rowCovers]
  | succ n ih =>
    have ih := ih (by omega)
    rw [Canvas.drawCols_succ]
    split
    · rename_i hb
      have hcell := Canvas.drawCols_cell cv a b r row (n := n) (by omega) (pixelX a n) (pixelY b r)
      simp only [rowCovers_fresh a b r row (n := n) (by omega), decide_false, Bool.xor_false] at hcell
      simp only [Canvas.hit, Bool.or_eq_true, ih, hcell, rowCovers_succ]
      constructor
      · rintro ((h | ⟨px, py, h, hc⟩) | h)
        · exact .inl h
        · exact .inr ⟨px, py, .inl h, hc⟩
        · exact .inr ⟨_, _, .inr ⟨hb, rfl, rfl⟩, h⟩
      · rintro (h | ⟨px, py, h | ⟨-, rfl, rfl⟩, hc⟩)
        · exact .inl (.inl h)
        · exact .inl (.inr ⟨px, py, h, hc⟩)
        · exact .inr hc
    · rename_i hb
      simp only [ih, rowCovers_succ, hb, Bool.false_eq_true, false_and, or_false]

end Sys2Proof.Machine
end

