-- ==== Sys2Proof/Laws/Frame.lean ====
section
/-! SUPPORT. The frames of the shapes that meanings are built from: a state that keeps every other field
meets `OnlyChanges`, the default advance and the skip move `pc` as they say, and a flag byte is the flag
it stands for. -/

namespace Sys2Proof.Machine

/-- A state that keeps every field but general registers of `ds` and `pc` meets the frame of `ds`. -/
theorem OnlyChanges.of_regs {ds : List Reg} {ps : List Part} {s t : State}
    (regs : ∀ r, r ∉ ds → t.reg r = s.reg r)
    (rest : ({ t with v := s.v, pc := s.pc } : State) = s) : OnlyChanges ds ps s t := by
  have hi : t.i = s.i := by rw [← rest]
  have hs : t.stack = s.stack := by rw [← rest]
  have hd : t.dt = s.dt := by rw [← rest]
  have ht : t.st = s.st := by rw [← rest]
  have hf : t.fb = s.fb := by rw [← rest]
  have hm : t.mem = s.mem := by rw [← rest]
  have hk : t.key = s.key := by rw [← rest]
  have hw : t.draws = s.draws := by rw [← rest]
  have he : t.schedule = s.schedule := by rw [← rest]
  have hn : t.taken = s.taken := by rw [← rest]
  have hp : t.params = s.params := by rw [← rest]
  constructor <;> simp_all [State.pressed, State.read]

/-- One register written, then the default advance. -/
theorem OnlyChanges.setReg (ps : List Part) (s : State) (x : Reg) (b : Byte) :
    OnlyChanges [x] ps s (s.setReg x b).advance := by
  refine .of_regs (fun r hr => ?_) rfl
  have : x ≠ r := fun e => hr (e ▸ List.mem_singleton.mpr rfl)
  simp [State.setReg_reg, this]

/-- Two registers written, then the default advance. -/
theorem OnlyChanges.setReg₂ (ps : List Part) (s : State) {ds : List Reg} {x y : Reg} (hx : x ∈ ds)
    (hy : y ∈ ds) (b c : Byte) : OnlyChanges ds ps s ((s.setReg x b).setReg y c).advance := by
  refine .of_regs (fun r hr => ?_) rfl
  have h1 : x ≠ r := fun e => hr (e ▸ hx)
  have h2 : y ≠ r := fun e => hr (e ▸ hy)
  simp [State.setReg_reg, h1, h2]

/-- Only `pc` written. -/
theorem OnlyChanges.setPc (ds : List Reg) (ps : List Part) (s : State) (w : Word) :
    OnlyChanges ds ps s (s.setPc w) :=
  .of_regs (fun _ _ => rfl) rfl

/-- A skip writes only `pc`. -/
theorem OnlyChanges.skipIf (ds : List Reg) (ps : List Part) (s : State) (c : Bool) :
    OnlyChanges ds ps s (s.skipIf c) := by
  rw [State.skipIf_eq]; exact .setPc ..

/-- The index register written, then the default advance. -/
theorem OnlyChanges.setI (s : State) (w : Word) :
    OnlyChanges [] [.index] s (s.setI w).advance := by
  constructor <;> intros <;> first | rfl | simp_all

/-- Memory written, then the default advance. -/
theorem OnlyChanges.setMem (s : State) (m : Memory) :
    OnlyChanges [] [.memory] s (s.setMem m).advance := by
  constructor <;> intros <;> first | rfl | simp_all

/-- The default advance after updates that leave `pc` alone. -/
theorem Advanced.advance {s t : State} (h : t.pc = s.pc) : Advanced 2 s t.advance := by
  simp [Advanced, h, BitVec.toNat_add]

/-- A skip whose condition holds advances by 4. -/
theorem Advanced.skip_taken {s : State} {c : Bool} (h : c = true) : Advanced 4 s (s.skipIf c) := by
  subst h
  rw [State.skipIf_eq]
  simp [Advanced, BitVec.toNat_add]

/-- A skip whose condition does not hold advances by 2. -/
theorem Advanced.skip_not_taken {s : State} {c : Bool} (h : c = false) :
    Advanced 2 s (s.skipIf c) := by
  subst h
  rw [State.skipIf_eq]
  simp [Advanced, BitVec.toNat_add]

/-- VF holding the byte of a flag holds the flag. -/
theorem FlagIs.of_flagByte {c : Bool} {p : Prop} {t : State} (h : c = true ↔ p)
    (ht : t.reg vf = flagByte c) : FlagIs p t := by
  unfold FlagIs
  cases c <;> simp_all [flagByte]

end Sys2Proof.Machine
end

