-- ==== Sys2Proof/Laws/PerInstr.lean ====
section
/-! SUPPORT. The family EncodeMatches: the word of every instruction has the fixed bits of the
instruction's own row of the opcode map, and its operands in the row's other bits (spec 30_encoding.md
R62, R64, R71). One lemma per constructor. -/

namespace Sys2Proof.Laws.EncodeMatches

/-- The word of the instruction, masked with its row's mask, is the row's match value, whatever the
operands (R64). -/
def Statement (i : Instr) : Prop := encodeWord i &&& i.maskBits = i.matchBits

/-- The match value lies within the mask (R64). -/
theorem match_in_mask (i : Instr) : i.matchBits &&& i.maskBits = i.matchBits := by
  cases i <;> (simp only [Instr.matchBits, Instr.maskBits]; decide)

/-- Operand bits outside the mask leave the fixed bits as the match value has them. -/
theorem of_disjoint {i : Instr} (ho : i.operandBits &&& i.maskBits = 0#16) : Statement i := by
  unfold Statement encodeWord
  rw [BitVec.and_comm, BitVec.and_or_distrib_left, BitVec.and_comm i.maskBits i.matchBits,
    match_in_mask, BitVec.and_comm i.maskBits i.operandBits, ho, BitVec.or_zero]

/-- An address lies in bits 11:0. -/
theorem addr_disjoint (nnn : Nat) : (BitVec.ofNat 12 nnn).setWidth 16 &&& 0xF000#16 = 0#16 := by
  generalize BitVec.ofNat 12 nnn = a
  apply BitVec.eq_of_getLsbD_eq
  intro i hi
  interval_cases i <;> simp

/-- A register index `x` and an immediate byte lie in bits 11:0. -/
theorem imm_disjoint (x : Reg) (nn : Byte) : (putX x ||| nn.setWidth 16) &&& 0xF000#16 = 0#16 := by
  have hx : putX x &&& 0xF000#16 = 0#16 := by revert x; decide
  have hn : nn.setWidth 16 &&& 0xF000#16 = 0#16 := by
    apply BitVec.eq_of_getLsbD_eq
    intro i hi
    interval_cases i <;> simp
  rw [BitVec.and_comm, BitVec.and_or_distrib_left, BitVec.and_comm _ (putX x), hx,
    BitVec.and_comm _ (nn.setWidth 16), hn, BitVec.or_zero]

/-- Two register indices lie in bits 11:4. -/
theorem regs_disjoint : ∀ x y : Reg, (putX x ||| putY y) &&& 0xF00F#16 = 0#16 := by decide

/-- One register index lies in bits 11:8. -/
theorem reg_disjoint : ∀ x : Reg, putX x &&& 0xF0FF#16 = 0#16 := by decide

/-- Two register indices and a row count lie in bits 11:0. -/
theorem draw_disjoint (x y : Reg) (n : Nat) :
    (putX x ||| putY y ||| (BitVec.ofNat 4 n).setWidth 16) &&& 0xF000#16 = 0#16 := by
  have hr : ∀ x y : Reg, (putX x ||| putY y) &&& 0xF000#16 = 0#16 := by decide
  have hn : (BitVec.ofNat 4 n).setWidth 16 &&& 0xF000#16 = 0#16 := by
    generalize BitVec.ofNat 4 n = a
    revert a; decide
  rw [BitVec.and_comm, BitVec.and_or_distrib_left, BitVec.and_comm _ (putX x ||| putY y), hr,
    BitVec.and_comm _ ((BitVec.ofNat 4 n).setWidth 16), hn, BitVec.or_zero]

theorem cls : Statement .cls := by rfl

theorem ret : Statement .ret := by rfl

theorem jp (nnn : Nat) : Statement (.jp nnn) := of_disjoint (addr_disjoint nnn)

theorem call (nnn : Nat) : Statement (.call nnn) := of_disjoint (addr_disjoint nnn)

theorem seImm (x : Reg) (nn : Byte) : Statement (.seImm x nn) :=
  of_disjoint (imm_disjoint x nn)

theorem sneImm (x : Reg) (nn : Byte) : Statement (.sneImm x nn) :=
  of_disjoint (imm_disjoint x nn)

theorem seReg (x y : Reg) : Statement (.seReg x y) := of_disjoint (regs_disjoint x y)

theorem ldImm (x : Reg) (nn : Byte) : Statement (.ldImm x nn) :=
  of_disjoint (imm_disjoint x nn)

theorem addImm (x : Reg) (nn : Byte) : Statement (.addImm x nn) :=
  of_disjoint (imm_disjoint x nn)

theorem ldReg (x y : Reg) : Statement (.ldReg x y) := of_disjoint (regs_disjoint x y)

theorem orReg (x y : Reg) : Statement (.orReg x y) := of_disjoint (regs_disjoint x y)

theorem andReg (x y : Reg) : Statement (.andReg x y) := of_disjoint (regs_disjoint x y)

theorem xorReg (x y : Reg) : Statement (.xorReg x y) := of_disjoint (regs_disjoint x y)

theorem addReg (x y : Reg) : Statement (.addReg x y) := of_disjoint (regs_disjoint x y)

theorem sub (x y : Reg) : Statement (.sub x y) := of_disjoint (regs_disjoint x y)

theorem shr (x y : Reg) : Statement (.shr x y) := of_disjoint (regs_disjoint x y)

theorem subn (x y : Reg) : Statement (.subn x y) := of_disjoint (regs_disjoint x y)

theorem shl (x y : Reg) : Statement (.shl x y) := of_disjoint (regs_disjoint x y)

theorem sneReg (x y : Reg) : Statement (.sneReg x y) := of_disjoint (regs_disjoint x y)

theorem ldI (nnn : Nat) : Statement (.ldI nnn) := of_disjoint (addr_disjoint nnn)

theorem jpV0 (nnn : Nat) : Statement (.jpV0 nnn) := of_disjoint (addr_disjoint nnn)

theorem rnd (x : Reg) (nn : Byte) : Statement (.rnd x nn) :=
  of_disjoint (imm_disjoint x nn)

theorem drw (x y : Reg) (n : Nat) : Statement (.drw x y n) :=
  of_disjoint (draw_disjoint x y n)

theorem skp (x : Reg) : Statement (.skp x) := of_disjoint (reg_disjoint x)

theorem sknp (x : Reg) : Statement (.sknp x) := of_disjoint (reg_disjoint x)

theorem ldVxDt (x : Reg) : Statement (.ldVxDt x) := of_disjoint (reg_disjoint x)

theorem ldVxK (x : Reg) : Statement (.ldVxK x) := of_disjoint (reg_disjoint x)

theorem ldDtVx (x : Reg) : Statement (.ldDtVx x) := of_disjoint (reg_disjoint x)

theorem ldStVx (x : Reg) : Statement (.ldStVx x) := of_disjoint (reg_disjoint x)

theorem addI (x : Reg) : Statement (.addI x) := of_disjoint (reg_disjoint x)

theorem ldF (x : Reg) : Statement (.ldF x) := of_disjoint (reg_disjoint x)

theorem ldB (x : Reg) : Statement (.ldB x) := of_disjoint (reg_disjoint x)

theorem ldMemVx (x : Reg) : Statement (.ldMemVx x) := of_disjoint (reg_disjoint x)

theorem ldVxMem (x : Reg) : Statement (.ldVxMem x) := of_disjoint (reg_disjoint x)

end Sys2Proof.Laws.EncodeMatches
end

