-- ==== Sys2Proof/Laws/Step.lean ====
section
/-! SUPPORT. What one step can do, said once: the event it delivers, the CPU step on it, and which
instructions can fault (spec 00_scope.md R10; 40_step.md R80; 60_exceptions.md R170). -/

namespace Sys2Proof.Machine

/-- A step delivers the first chosen event and takes it off the list (R10, R194). -/
theorem step_of_schedule {s : State} {e : Event} {es : List Event} (h : s.schedule = e :: es) :
    step s = deliver e (s.setSchedule es) := by
  simp [step, stepEvent, nextEvent, h]

/-- Where the next event is a `Step`, chosen or not, the step is the CPU step (R80, R194). -/
theorem step_of_cpu {s : State} (h : nextEvent s = .cpu) :
    step s = cpuStep (s.setSchedule s.schedule.tail) := by
  simp only [step, stepEvent, h, deliver]

/-- Taking no event off an empty list of chosen events changes nothing. -/
theorem State.setSchedule_of_nil {s : State} (h : s.schedule = []) : s.setSchedule [] = s := by
  rw [← h]; rfl

/-- The only faults of an instruction: 00EE on an empty stack and 2NNN on a full one (R170). -/
theorem exec_fault {i : Instr} {s : State} {f : Fault} (h : exec i s = .fault f) :
    (i = .ret ∧ s.stack = [] ∧ f = .stackUnderflow s.pc) ∨
      (∃ n, i = .call n) ∧ s.full = true ∧ f = .stackOverflow s.pc := by
  cases i
  case ret =>
    simp only [exec, execRet] at h
    split at h
    · rename_i e; cases h; exact .inl ⟨rfl, s.top_none.mp e, rfl⟩
    · cases h
  case call n =>
    simp only [exec, execCall] at h
    split at h
    · rename_i e; cases h; exact .inr ⟨⟨n, rfl⟩, e, rfl⟩
    · cases h
  case ldVxK => simp only [exec, execLdVxK] at h; split at h <;> cases h
  all_goals cases h

end Sys2Proof.Machine
end

