-- ==== Sys2Proof/Tests/Slice0.lean ====
section
/-! SUPPORT. The model's own tests. Expected results are those of spec 95_test_vectors.md (the vector is
named in each docstring) or are written out from the encoding tables of 30_encoding.md. The witnesses
show for each obligation a concrete state and operands that meet its hypotheses. -/

namespace Sys2Proof.Tests

open Sys2Proof.Machine

/-! ### Helpers -/

/-- Something read from the state after the word `op` has run as the next instruction of `s`. -/
def after {α : Type} (op : Nat) (s : State) (f : State → α) : Option α :=
  (nextState (step (s.withFetchWord 16 op))).map f

/-- Something read from the state after the next event of `s`. -/
def afterEvent {α : Type} (s : State) (f : State → α) : Option α := (nextState (step s)).map f

/-- The state after reset with `V[x]` = `a`. -/
def one (x : Reg) (a : Byte) : State := State.reset.setReg x a

/-- The state after reset with `V[x]` = `a` and `V[y]` = `b`. -/
def two (x : Reg) (a : Byte) (y : Reg) (b : Byte) : State := (one x a).setReg y b

/-- `s` with `I` = `w` and the bytes `bs` in memory from there on. -/
def withBytes (w : Word) (bs : List Byte) (s : State) : State :=
  (s.setI w).setMem (s.mem.writeAll s.params.font w.toNat bs)

/-- The state after reset with `pc` = `w` and the bytes `bs` in memory from there on. -/
def atPc (w : Word) (bs : List Byte) : State :=
  (State.reset.setPc w).setMem (Memory.writeAll defaultFont [] w.toNat bs)

/-- The state after reset with a stack of `n` entries. -/
def stacked (n : Nat) : State := State.reset.setStack (List.replicate n 0x0206#16)

/-- The same with STACK_DEPTH replaced. -/
def stackedOf (depth : Option Nat) (n : Nat) : State :=
  { stacked n with params := ⟨depth, defaultFont⟩ }

/-- The state after reset with the chosen events `es`. -/
def chosen (es : List Event) : State := State.reset.setSchedule es

/-! ### Well-formedness: each check refuses an ill-formed instruction, and admits the boundary -/

theorem test_wf_jp_range : (Instr.jp 4096).wf = false ∧ (Instr.jp 4095).wf = true := by decide
theorem test_wf_call_range : (Instr.call 4096).wf = false ∧ (Instr.call 4095).wf = true := by decide
theorem test_wf_ldI_range : (Instr.ldI 4096).wf = false ∧ (Instr.ldI 4095).wf = true := by decide
theorem test_wf_jpV0_range : (Instr.jpV0 4096).wf = false ∧ (Instr.jpV0 4095).wf = true := by decide
theorem test_wf_drw_range : (Instr.drw 0 0 16).wf = false ∧ (Instr.drw 0 0 15).wf = true := by decide

/-! ### Decoding: a word of every row of R64, the operand fields at the ends of their ranges -/

/-- A word, the mask and match value of its row in R64, and the instruction it stands for. -/
structure Row where
  op : Word
  mask : Word
  value : Word
  instr : Instr
  deriving DecidableEq, Repr

/-- The word agrees with its row and decodes to the row's instruction, from the two bytes as stored. -/
def Row.good (r : Row) : Bool :=
  (r.op &&& r.mask == r.value) && (decodeWord r.op == some r.instr)
    && (decodeTableWord 16 r.op.toNat == some r.instr)

/-- Rows 0 to 7, from the patterns 00E0, 00EE, 1NNN, 2NNN, 3XNN, 4XNN, 5XY0, 6XNN, 7XNN. -/
def rowsFlow : List Row :=
  [⟨0x00E0, 0xFFFF, 0x00E0, .cls⟩, ⟨0x00EE, 0xFFFF, 0x00EE, .ret⟩,
   ⟨0x1FFF, 0xF000, 0x1000, .jp 0xFFF⟩, ⟨0x2F01, 0xF000, 0x2000, .call 0xF01⟩,
   ⟨0x3F2A, 0xF000, 0x3000, .seImm 15 0x2A⟩, ⟨0x40FF, 0xF000, 0x4000, .sneImm 0 0xFF⟩,
   ⟨0x5F10, 0xF00F, 0x5000, .seReg 15 1⟩, ⟨0x6E80, 0xF000, 0x6000, .ldImm 14 0x80⟩,
   ⟨0x7103, 0xF000, 0x7000, .addImm 1 0x03⟩]

/-- Row 8, from the patterns 8XY0 to 8XY7 and 8XYE. -/
def rowsAlu : List Row :=
  [⟨0x8F10, 0xF00F, 0x8000, .ldReg 15 1⟩, ⟨0x81F1, 0xF00F, 0x8001, .orReg 1 15⟩,
   ⟨0x8232, 0xF00F, 0x8002, .andReg 2 3⟩, ⟨0x8323, 0xF00F, 0x8003, .xorReg 3 2⟩,
   ⟨0x8014, 0xF00F, 0x8004, .addReg 0 1⟩, ⟨0x8FE5, 0xF00F, 0x8005, .sub 15 14⟩,
   ⟨0x81F6, 0xF00F, 0x8006, .shr 1 15⟩, ⟨0x8EF7, 0xF00F, 0x8007, .subn 14 15⟩,
   ⟨0x8A5E, 0xF00F, 0x800E, .shl 10 5⟩]

/-- Rows 9 to D, from the patterns 9XY0, ANNN, BNNN, CXNN, DXYN. -/
def rowsIndex : List Row :=
  [⟨0x91F0, 0xF00F, 0x9000, .sneReg 1 15⟩, ⟨0xA800, 0xF000, 0xA000, .ldI 0x800⟩,
   ⟨0xB001, 0xF000, 0xB000, .jpV0 0x001⟩, ⟨0xC30F, 0xF000, 0xC000, .rnd 3 0x0F⟩,
   ⟨0xD12F, 0xF000, 0xD000, .drw 1 2 15⟩]

/-- Rows E and F, from the patterns EX9E, EXA1 and FX07 to FX65. -/
def rowsSystem : List Row :=
  [⟨0xEF9E, 0xF0FF, 0xE09E, .skp 15⟩, ⟨0xE1A1, 0xF0FF, 0xE0A1, .sknp 1⟩,
   ⟨0xF407, 0xF0FF, 0xF007, .ldVxDt 4⟩, ⟨0xF30A, 0xF0FF, 0xF00A, .ldVxK 3⟩,
   ⟨0xF815, 0xF0FF, 0xF015, .ldDtVx 8⟩, ⟨0xF118, 0xF0FF, 0xF018, .ldStVx 1⟩,
   ⟨0xF21E, 0xF0FF, 0xF01E, .addI 2⟩, ⟨0xFA29, 0xF0FF, 0xF029, .ldF 10⟩,
   ⟨0xF033, 0xF0FF, 0xF033, .ldB 0⟩, ⟨0xFF55, 0xF0FF, 0xF055, .ldMemVx 15⟩,
   ⟨0xF265, 0xF0FF, 0xF065, .ldVxMem 2⟩]

/-- Witness for every clause of EveryPatternSelectsItsInstruction, and for EncodeOfDecodeIsTheWord. -/
theorem test_decode_flow : rowsFlow.all Row.good = true := by decide
theorem test_decode_alu : rowsAlu.all Row.good = true := by decide
theorem test_decode_index : rowsIndex.all Row.good = true := by decide
theorem test_decode_system : rowsSystem.all Row.good = true := by decide

/-- T6 to T12 and R65: words of each of the six families match nothing, at the ends of each family. -/
theorem test_decode_unmatched :
    ([0x0000, 0x00DF, 0x00E1, 0x01E0, 0x0123, 0x00FD, 0x0FFF, 0x5121, 0x500F, 0x8128, 0x8129, 0x812A,
      0x812B, 0x812C, 0x812D, 0x812F, 0x9AB5, 0x9001, 0xE19F, 0xE0A2, 0xE000, 0xF000, 0xF075, 0xF085,
      0xF030, 0xF002, 0xF01F] : List Word).all (fun op => (decodeWord op).isNone) = true := by decide

/-! ### The step (T1 to T8) -/

theorem test_unmatched_advances : after 0x5121 State.reset (fun t => (t.pc, t.v)) =
    some (0x0202#16, State.reset.v) := by decide

theorem test_unmatched_reports :
    nextReport (State.reset.withFetchWord 16 0x5121) = some ⟨0x5121#16, 0x0200#16⟩ := by decide

/-- T2. -/
theorem test_last_fetchable_address :
    afterEvent (atPc 0x0FFE [0x60, 0x07]) (fun t => (t.reg 0, t.pc)) = some (7#8, 0x1000#16) := by
  decide

/-- T3 and T4. -/
theorem test_fetch_out_of_bounds :
    faultOf (step (atPc 0x0FFF [])) = some (.outOfBoundsFetch 0x0FFF#16) ∧
    faultOf (step (atPc 0x1000 [])) = some (.outOfBoundsFetch 0x1000#16) := by decide

/-- T5. -/
theorem test_odd_counter :
    afterEvent (atPc 0x0201 [0x60, 0x2A]) (fun t => (t.reg 0, t.pc)) = some (0x2A#8, 0x0203#16) := by
  decide

/-! ### Display (T20 to T32) -/

/-- T20. -/
theorem test_cls_keeps_flag :
    after 0x00E0 ((one vf 9).setFb (Vector.replicate 32 (BitVec.allOnes 64)))
      (fun t => (t.fb, t.reg vf, t.pc)) = some (Vector.replicate 32 0#64, 9#8, 0x0202#16) := by decide

/-- T25: horizontal wrap in the same row; bit x of a row is column x. -/
theorem test_drw_wraps_columns :
    after 0xD011 (withBytes 0x300 [0xFF] (one 0 60)) (fun t => (t.fb[0], t.fb[1], t.reg vf)) =
      some (0xF00000000000000F#64, 0#64, 0#8) := by decide

/-- T27 and T22: 70 mod 64 is 6 and 40 mod 32 is 8, onto a set cell, so VF is 1. -/
theorem test_drw_collides :
    after 0xD011 ((withBytes 0x300 [0x80] (two 0 70 1 40)).setFb (Frame.blank.flip 6 8))
      (fun t => (t.fb, t.reg vf)) = some (Frame.blank, 1#8) := by decide

/-! ### Control transfer (T40 to T54) -/

/-- T50. -/
theorem test_ret_pops_the_newest :
    after 0x00EE (State.reset.setStack [0x0202, 0x0404]) (fun t => (t.pc, t.stack)) =
      some (0x0404#16, [0x0202#16]) := by decide

/-- T49. -/
theorem test_ret_underflow :
    faultOf (step (State.reset.withFetchWord 16 0x00EE)) = some (.stackUnderflow 0x0200#16) := by decide

/-- T42 and T41. -/
theorem test_jp_is_unchecked : after 0x1FFF State.reset (fun t => t.pc) = some 0x0FFF#16 := by decide
theorem test_jp_parks :
    after 0x1200 State.reset id = some (State.reset.withFetchWord 16 0x1200) := by decide

/-- T46 and T47. -/
theorem test_call_last_free_slot :
    after 0x2400 (stacked 15) (fun t => (t.pc, t.sp, t.top)) =
      some (0x0400#16, 16, some 0x0202#16) := by decide

/-- T45. -/
theorem test_call_overflow :
    faultOf (step ((stacked 16).withFetchWord 16 0x2400)) = some (.stackOverflow 0x0200#16) := by decide

/-- P7b: with STACK_DEPTH `unbounded` the call completes; with another bound it faults there. -/
theorem test_call_other_depths :
    after 0x2400 (stackedOf none 16) (fun t => t.sp) = some 17 ∧
    after 0x2400 (stackedOf (some 2) 1) (fun t => t.sp) = some 2 ∧
    faultOf (step ((stackedOf (some 2) 2).withFetchWord 16 0x2400)) =
      some (.stackOverflow 0x0200#16) := by decide

/-- T52 and T54. -/
theorem test_jpV0_is_not_masked : after 0xBFFF (one 0 0xFF) (fun t => t.pc) = some 0x10FE#16 := by decide
theorem test_jpV0_reads_v0 : after 0xB400 (one 4 0x55) (fun t => t.pc) = some 0x0400#16 := by decide

/-! ### Skips (T60 to T70) -/

theorem test_seImm : after 0x332A (one 3 0x2A) (fun t => t.pc) = some 0x0204#16 ∧
    after 0x332A (one 3 0x2B) (fun t => t.pc) = some 0x0202#16 := by decide
theorem test_sneImm : after 0x4300 (one 3 0x2A) (fun t => t.pc) = some 0x0204#16 ∧
    after 0x432A (one 3 0x2A) (fun t => t.pc) = some 0x0202#16 := by decide
theorem test_seReg : after 0x5120 (two 1 7 2 7) (fun t => t.pc) = some 0x0204#16 ∧
    after 0x5120 (two 1 7 2 8) (fun t => t.pc) = some 0x0202#16 := by decide
theorem test_sneReg : after 0x9120 (two 1 7 2 8) (fun t => t.pc) = some 0x0204#16 ∧
    after 0x9330 (one 3 7) (fun t => t.pc) = some 0x0202#16 := by decide

/-! ### Register load and arithmetic (T80 to T119) -/

/-- T81. -/
theorem test_ldImm : after 0x6FFF State.reset (fun t => (t.reg vf, t.pc)) =
    some (0xFF#8, 0x0202#16) := by decide
/-- T82. -/
theorem test_addImm_wraps : after 0x7203 (one 2 0xFE) (fun t => (t.reg 2, t.reg vf)) =
    some (0x01#8, 0#8) := by decide
/-- T85. -/
theorem test_ldReg : after 0x8140 (one 4 0x9C) (fun t => (t.reg 1, t.reg 4)) =
    some (0x9C#8, 0x9C#8) := by decide
/-- T86. -/
theorem test_orReg_keeps_flag : after 0x8011 ((two 0 0x0F 1 0xF0).setReg vf 1)
    (fun t => (t.reg 0, t.reg vf)) = some (0xFF#8, 1#8) := by decide
/-- T87. -/
theorem test_andReg : after 0x8012 (two 0 0x3C 1 0x0F) (fun t => t.reg 0) = some 0x0C#8 := by decide
/-- T88. -/
theorem test_xorReg : after 0x8013 (two 0 0xFF 1 0x0F) (fun t => t.reg 0) = some 0xF0#8 := by decide
/-- T90 and T91: the carry clauses of AddWritesSumThenCarry at 256 and 255. -/
theorem test_addReg_carry : after 0x8014 (two 0 0xFF 1 0x01) (fun t => (t.reg 0, t.reg vf)) =
      some (0x00#8, 1#8) ∧
    after 0x8014 ((two 0 0xFE 1 0x01).setReg vf 1) (fun t => (t.reg 0, t.reg vf)) =
      some (0xFF#8, 0#8) := by decide
/-- T94 and T95: the destination F loses the sum, the source F is the old VF. -/
theorem test_addReg_flag_operand : after 0x8F14 (two vf 0x10 1 0x20) (fun t => t.reg vf) = some 0#8 ∧
    after 0x80F4 (two 0 0xFF vf 0x01) (fun t => (t.reg 0, t.reg vf)) = some (0x00#8, 1#8) := by decide
/-- T98 and T97: the borrow clauses at equal operands and below. -/
theorem test_sub_borrow : after 0x8015 (two 0 0x07 1 0x07) (fun t => (t.reg 0, t.reg vf)) =
      some (0x00#8, 1#8) ∧
    after 0x8015 (two 0 0x03 1 0x05) (fun t => (t.reg 0, t.reg vf)) = some (0xFE#8, 0#8) := by decide
/-- T101 and T103. -/
theorem test_sub_flag_operand : after 0x8F15 (two vf 0x05 1 0x03) (fun t => t.reg vf) = some 0x02#8 ∧
    after 0x80F5 (two 0 0x0A vf 0x03) (fun t => (t.reg 0, t.reg vf)) = some (0x07#8, 1#8) := by decide
/-- T106 and T107. -/
theorem test_shr : after 0x8016 (two 0 0xFF 1 0x12) (fun t => (t.reg 0, t.reg 1, t.reg vf)) =
      some (0x7F#8, 0x12#8, 1#8) ∧
    after 0x8016 (one vf 1) (fun t => (t.reg 0, t.reg vf)) = some (0#8, 0#8) := by decide
/-- T108. -/
theorem test_shr_flag_operand : after 0x8F06 (one vf 0x07) (fun t => t.reg vf) = some 0x03#8 := by decide
/-- T109 and T110. -/
theorem test_subn_borrow : after 0x8017 (two 0 0x03 1 0x05) (fun t => (t.reg 0, t.reg vf)) =
      some (0x02#8, 1#8) ∧
    after 0x8017 (two 0 0x0A 1 0x03) (fun t => (t.reg 0, t.reg vf)) = some (0xF9#8, 0#8) := by decide
/-- T111 and T112. -/
theorem test_subn_flag_operand : after 0x8F17 (two vf 0x03 1 0x0A) (fun t => t.reg vf) = some 0x07#8 ∧
    after 0x80F7 (one 0 0x01) (fun t => (t.reg 0, t.reg vf)) = some (0xFF#8, 0#8) := by decide
/-- T114 and T115. -/
theorem test_shl : after 0x801E (two 0 0xFF 1 0x12) (fun t => (t.reg 0, t.reg 1, t.reg vf)) =
      some (0xFE#8, 0x12#8, 1#8) ∧
    after 0x801E (two 0 0x40 vf 1) (fun t => (t.reg 0, t.reg vf)) = some (0x80#8, 0#8) := by decide
/-- T116b. -/
theorem test_shl_flag_operand : after 0x8F0E (one vf 0x41) (fun t => t.reg vf) = some 0x82#8 := by decide
/-- T117 and T119, with the random byte given. -/
theorem test_rnd_masks : (rndWith 0xA7 3 0x0F State.reset).reg 3 = 0x07#8 ∧
    (rndWith 0x5C 3 0xFF State.reset).reg 3 = 0x5C#8 := by decide
/-- CXNN completes for every value of the free byte, and each execution is its own draw (R189). -/
theorem test_rnd_draws : after 0xC3FF State.reset (fun t => (t.pc, t.draws)) =
    some (0x0202#16, 1) := by decide

/-! ### Index and memory (T130 to T147) -/

/-- T131. -/
theorem test_ldI : after 0xAFFF State.reset (fun t => t.i) = some 0x0FFF#16 := by decide
/-- T133. -/
theorem test_addI_wraps : after 0xF01E ((two 0 1 vf 9).setI 0x0FFF) (fun t => (t.i, t.reg vf)) =
    some (0#16, 9#8) := by decide
/-- T134 and T136. -/
theorem test_ldF : after 0xF029 (one 0 0x0A) (fun t => t.i) = some 0x0032#16 ∧
    after 0xF029 (one 0 0xFF) (fun t => t.i) = some 0x04FB#16 := by decide
/-- T140. -/
theorem test_ldB_wraps : after 0xF033 ((one 0 123).setI 0x0FFE)
    (fun t => (t.read 0xFFE, t.read 0xFFF, t.read 0x000, t.i)) =
      some (1#8, 2#8, 3#8, 0x0FFE#16) := by decide
/-- T141. -/
theorem test_ldMemVx : after 0xF255 (((two 0 0x11 1 0x22).setReg 2 0x33).setI 0x0400)
    (fun t => (t.read 0x400, t.read 0x402, t.read 0x403, t.i)) =
      some (0x11#8, 0x33#8, 0#8, 0x0400#16) := by decide
/-- T143 in part: the store wraps at the top of memory. -/
theorem test_ldMemVx_wraps : after 0xF155 ((two 0 0x11 1 0x22).setI 0x0FFF)
    (fun t => (t.read 0xFFF, t.read 0x000)) = some (0x11#8, 0x22#8) := by decide
/-- T144. -/
theorem test_ldVxMem : after 0xF265 (withBytes 0x300 [2, 5, 4] (one 3 0x77))
    (fun t => (t.reg 0, t.reg 1, t.reg 2, t.reg 3, t.i)) =
      some (2#8, 5#8, 4#8, 0x77#8, 0x0300#16) := by decide
/-- T145: depends on FONT. -/
theorem test_ldVxMem_font : after 0xF465 State.reset (fun t => (t.reg 0, t.reg 1, t.reg 4)) =
    some (0xF0#8, 0x90#8, 0xF0#8) := by decide

/-! ### Keys and timers (T160 to T177) -/

/-- T162 and T163. -/
theorem test_skp_masks : after 0xE09E ((one 0 0x0A).setKey 2 true) (fun t => t.pc) =
      some 0x0204#16 ∧
    after 0xE09E ((one 0 0x0A).setKey 10 true) (fun t => t.pc) = some 0x0202#16 := by decide
/-- T165 and T166. -/
theorem test_sknp_masks : after 0xE0A1 (one 0 0x03) (fun t => t.pc) = some 0x0204#16 ∧
    after 0xE0A1 ((one 0 0x0B).setKey 3 true) (fun t => t.pc) = some 0x0202#16 := by decide
/-- T167. -/
theorem test_ldVxK_rewinds :
    after 0xF30A State.reset id = some (State.reset.withFetchWord 16 0xF30A) := by decide
/-- T168 and T169. -/
theorem test_ldVxK_lowest : after 0xF30A ((State.reset.setKey 9 true).setKey 5 true)
      (fun t => (t.reg 3, t.pc)) = some (5#8, 0x0202#16) ∧
    after 0xF30A (State.reset.setKey 15 true) (fun t => (t.reg 3, t.pc)) =
      some (0x0F#8, 0x0202#16) := by decide
/-- T171. -/
theorem test_ldVxDt : after 0xF407 (State.reset.setDt 0x3C) (fun t => (t.reg 4, t.dt)) =
    some (0x3C#8, 0x3C#8) := by decide
/-- T172. -/
theorem test_ldDtVx : after 0xF015 (one 0 3) (fun t => (t.dt, t.st)) = some (3#8, 0#8) := by decide
/-- T173. -/
theorem test_ldStVx : after 0xF118 (one 1 0x10) (fun t => (t.st, t.dt, t.tone)) =
    some (0x10#8, 0#8, true) := by decide
/-- T174 and T175: each clause of TickDecrementsBothTimers at 2, 1 and 0. -/
theorem test_tick : afterEvent (((chosen [.tick]).setDt 2).setSt 1) (fun t => (t.dt, t.st, t.tone)) =
      some (1#8, 0#8, false) ∧
    afterEvent (chosen [.tick]) (fun t => (t.dt, t.st)) = some (0#8, 0#8) := by decide
/-- T177. -/
theorem test_setKey : afterEvent (chosen [.setKey 4 true]) id =
    some (State.reset.setKey 4 true) := by decide

/-! ### Reset, load, snapshot (T190 to T196) and the cause port (D14) -/

/-- T190. -/
theorem test_reset : afterEvent (((two 0 1 vf 2).setPc 0x300).setSchedule [.reset]) id =
    some State.reset := by decide
/-- R28: memory after reset holds the FONT of the machine at 0x000 to 0x04F, whatever its bytes; the
default font's last byte is 0x80. -/
theorem test_reset_font : (State.resetOf ⟨none, Vector.replicate 80 7⟩).read 0x04F = 7#8 ∧
    (State.resetOf ⟨none, Vector.replicate 80 7⟩).read 0x050 = 0#8 ∧
    State.reset.read 0x04F = 0x80#8 ∧ State.reset.read 0x005 = 0x20#8 := by decide

/-- T191. -/
theorem test_load : afterEvent (chosen [.load [0x60, 0x05]])
    (fun t => (t.read 0x200, t.read 0x201, t.read 0x202, t.pc)) =
      some (0x60#8, 0x05#8, 0#8, 0x0200#16) := by decide
/-- T192 and T193. -/
theorem test_load_bound : romFits 3584 = true ∧ romFits 3585 = false := by decide
/-- T196 in small: a snapshot, a tick, a restore. -/
theorem test_restore : (Host.Core.run core 3 ((chosen [.snapshot, .tick, .restore Arch.reset]))) =
    .next (State.reset.setTaken [Arch.reset]) := by rfl
/-- D16: a value that no snapshot returned is refused. -/
theorem test_restore_foreign : step (chosen [.restore Arch.reset]) = .refused .foreignSnapshot := by rfl
/-- D14. -/
theorem test_causes : nextCause State.reset = 4 ∧
    nextCause (State.reset.withFetchWord 16 0x00E0) = 0 ∧
    nextCause (State.reset.setPc 0x1000) = 1 ∧
    nextCause (State.reset.withFetchWord 16 0x00EE) = 2 ∧
    nextCause ((stacked 16).withFetchWord 16 0x2400) = 3 := by decide
/-- Writing what an unlisted address holds removes the entry: equal memories are equal lists. -/
theorem test_memory_canonical :
    Memory.write defaultFont (Memory.write defaultFont [] 0x300 7) 0x300 0 = [] ∧
    Memory.write defaultFont [] 0x000 0xF0 = [] := by decide

/-! ### Witnesses: the hypotheses of every obligation that has some are met together -/

theorem witness_DecodeOfEncodeIsTheInstruction :
    WellFormed (.drw 15 15 15) ∧ WellFormed (.jp 4095) ∧ WellFormed .cls := by decide

theorem witness_EncodeOfDecodeIsTheWord : decodeWord 0x8FF6 = some (.shr 15 15) := by decide

theorem witness_StepRunsTheDecodedInstruction :
    let s := atPc 0x0FFE [0x60, 0x07]
    s.pc.toNat + 1 < 4096 ∧
    decode [s.read (BitVec.ofNat 12 s.pc.toNat), s.read (BitVec.ofNat 12 (s.pc.toNat + 1))]
      = .ok (.ldImm 0 7) [] ∧
    s.schedule = [] ∧ (s.setSchedule [.cpu, .tick]).schedule = .cpu :: [.tick] := by decide

theorem witness_PlacedWordRunsNext : decodeWord 0xFF65 = some (.ldVxMem 15) := by decide

theorem witness_FetchFaultsExactlyOutOfBounds :
    nextEvent (atPc 0x0FFF []) = .cpu ∧ 0x0FFF ≤ (atPc 0x0FFF []).pc.toNat ∧
    nextEvent (atPc 0x0FFE []) = .cpu ∧ (atPc 0x0FFE []).pc.toNat < 0x0FFF ∧
    nextEvent ((atPc 0x0FFF []).setSchedule [.cpu, .tick]) = .cpu := by decide

theorem witness_UnmatchedOpcodeOnlyAdvancesAndReports :
    nextEvent State.reset = .cpu ∧ nextEvent (chosen [.cpu, .tick]) = .cpu ∧ State.reset.fetch = some 0x0000#16 ∧ decodeWord 0x0000 = none ∧
    (atPc 0x0FFE [0x00, 0xE0]).fetch = some 0x00E0#16 ∧ decodeWord 0x00E0 = some .cls := by decide

theorem witness_StepFaultsOnlyAsListed :
    step (State.reset.setPc 0x0FFF) = .fault (.outOfBoundsFetch 0x0FFF#16) ∧
    step (State.reset.withFetchWord 16 0x00EE) = .fault (.stackUnderflow 0x0200#16) ∧
    step ((stacked 16).withFetchWord 16 0x2400) = .fault (.stackOverflow 0x0200#16) ∧
    step (chosen [.load (List.replicate 3585 0#8)]) = .fault (.romTooLarge 3585) := by
  have long : ∀ rom : List Byte, rom.length = 3585 →
      step (chosen [.load rom]) = .fault (.romTooLarge 3585) := by
    intro rom h
    show loadRom rom _ = _
    rw [loadRom, h]
    rfl
  exact ⟨rfl, rfl, rfl, long _ List.length_replicate⟩

theorem witness_NoInstructionIsRefused :
    step (chosen [.restore Arch.reset]) = .refused .foreignSnapshot := rfl

theorem witness_NonTransfersAdvanceByTwo : ∃ t, exec .cls State.reset = .next t := ⟨_, rfl⟩

theorem witness_TickAndSetKeyDoNotClearAFault :
    cpuStep (State.reset.setPc 0x0FFF) = .fault (.outOfBoundsFetch 0x0FFF#16) := rfl

theorem witness_CopyRegister_sameRegister :
    after 0x8110 (one 1 7) (fun t => (t.reg 1, t.pc)) = some (7#8, 0x0202#16) := by decide

theorem witness_DrawXorsTheSprite_clauses :
    let s := withBytes 0x300 [0xFF] State.reset
    s.spriteCovers 0 0 15 0 0 ∧ s.spriteCovers 0 0 15 7 0 ∧ ¬ s.spriteCovers 0 0 15 0 15 := by
  refine ⟨⟨0, 0, by decide⟩, ⟨7, 0, by decide⟩, ?_⟩
  rintro ⟨c, r, -, hr, -, hy, -⟩
  simp only [BitVec.ofNat_eq_ofNat, BitVec.toNat_ofNat] at hy
  change _ = 15 at hy
  omega

theorem witness_DrawingTwice_collides :
    let s := withBytes 0x300 [0xFF] State.reset
    (15 < 16 ∧ (0 : Reg) ≠ vf ∧ (1 : Reg) ≠ vf) ∧
    s.spriteCovers (s.reg 0) (s.reg 1) 15 0 0 ∧ s.fb.cell 0 0 = false :=
  ⟨by decide, ⟨0, 0, by decide⟩, by decide⟩

theorem witness_DisplayStaysClearWithoutDraw :
    (∀ i ∈ [Instr.ldImm 0 5, .ldI 0x300], isDraw i = false) ∧
    ∃ t, execAll (.cls :: [.ldImm 0 5, .ldI 0x300]) State.reset = .next t :=
  ⟨by decide, _, rfl⟩

theorem witness_ReturnPopsOrUnderflows :
    (State.reset.setStack [0x0202, 0x0404]).stack = [0x0202#16] ++ [0x0404#16] ∧
    State.reset.stack = [] := by decide

theorem witness_JumpSetsTheCounter :
    4095 < 4096 ∧ (State.reset.setPc 0x0FFF).pc.toNat = 4095 := by decide

theorem witness_CallPushesOrOverflows :
    4095 < 4096 ∧ (∀ d, (stacked 15).params.depth = some d → (stacked 15).stack.length < d) ∧
    (stacked 16).params.depth = some (stacked 16).stack.length ∧
    (∀ d, (stackedOf none 16).params.depth = some d → (stackedOf none 16).stack.length < d) := by
  refine ⟨by decide, ?_, by decide, ?_⟩
  · intro d h; cases h; decide
  · intro d h; cases h

theorem witness_JumpOffsetAddsV0_LoadIndexWritesTheAddress : 4095 < 4096 ∧ 0 < 4096 := by decide

theorem witness_ReturnUndoesCall :
    ∀ d, (stacked 15).params.depth = some d → (stacked 15).stack.length < d := by
  intro d h; cases h; decide

theorem witness_ImmediateSkips_clauses :
    State.reset.reg 3 = 0#8 ∧ State.reset.reg 3 ≠ 1#8 := by decide

theorem witness_RegisterSkips_clauses :
    (two 1 7 2 7).reg 1 = (two 1 7 2 7).reg 2 ∧ (two 1 7 2 8).reg 1 ≠ (two 1 7 2 8).reg 2 := by decide

theorem witness_KeySkipsTestTheMaskedKey :
    (7 : Key).val = ((one 0 0xFF).reg 0).toNat % 8 ∧ ((one 0 0xFF).setKey 7 true).pressed 7 = true ∧
    (one 0 0xFF).pressed 7 = false := by decide

theorem witness_StoredInstructionRunsOnTheNextStep :
    let s := ((two 0 0x6A 1 0x2A).setPc 0x0FFC).setI 0x0FFE
    1 ≤ (1 : Reg).val ∧ s.i.toNat = s.pc.toNat + 2 ∧ s.pc.toNat + 3 < 4096 ∧
    nextEvent s = .cpu ∧ nextEvent (s.setSchedule [.cpu, .tick]) = .cpu ∧
    decode [s.reg 0, s.reg 1] = .ok (.ldImm 10 0x2A) [] := by decide

theorem witness_KeyWait_clauses :
    (∀ k, State.reset.pressed k = false) ∧
    ((State.reset.setKey 15 true).pressed 15 = true ∧
      ∀ j < (15 : Key), (State.reset.setKey 15 true).pressed j = false) ∧
    (State.reset.setKey 0 true).pressed 0 = true := by decide

theorem witness_TickDecrementsBothTimers :
    (((chosen [.tick, .cpu]).setDt 255).setSt 0).schedule = .tick :: [.cpu] ∧
    (((chosen [.tick, .cpu]).setDt 255).setSt 0).dt ≠ 0#8 ∧
    (((chosen [.tick, .cpu]).setDt 255).setSt 0).st = 0#8 := by decide

theorem witness_TicksCountTimersDownToZero :
    ((chosen [.tick, .tick, .tick, .reset]).setDt 2).schedule
      = List.replicate 3 .tick ++ [.reset] := by decide

theorem witness_SetKeyChangesOneKey :
    (chosen [.setKey 15 true, .tick]).schedule = .setKey 15 true :: [.tick] := by decide

theorem witness_ResetLeavesTheResetValues :
    ((one 0 5).setSchedule [.reset]).schedule = .reset :: [] ∧
    (0x04F : Addr).toNat < 80 ∧ 80 ≤ (0x050 : Addr).toNat := by decide

theorem witness_LoadCopiesTheRomOrFaults (b : Byte) :
    (chosen [.load (List.replicate 3584 b)]).schedule = .load (List.replicate 3584 b) :: [] ∧
    0x200 + (List.replicate 3584 b).length ≤ 4096 ∧ 4096 < 0x200 + (List.replicate 3585 b).length := by
  have h1 : (List.replicate 3584 b).length = 3584 := List.length_replicate
  have h2 : (List.replicate 3585 b).length = 3585 := List.length_replicate
  exact ⟨rfl, by omega, by omega⟩

theorem witness_BootRunsTheFirstRomInstruction :
    ((one 0 5).setSchedule [.reset, .load [0x60, 0x05, 0xFF], .cpu, .tick]).schedule
      = .reset :: .load (0x60 :: 0x05 :: [0xFF]) :: .cpu :: [.tick] ∧
    ([0xFF] : List Byte).length + 2 ≤ 3584 ∧ decode [0x60, 0x05] = .ok (.ldImm 0 5) [] := by decide

theorem witness_SnapshotCopiesAndChangesNothing :
    (chosen [.snapshot, .tick]).schedule = .snapshot :: [.tick] := by decide

theorem witness_RestoreReplacesTheStateOrIsRefused :
    (chosen [.restore Arch.reset]).schedule = .restore Arch.reset :: [] ∧
    Arch.reset ∈ ((chosen [.restore Arch.reset]).setTaken [Arch.reset]).taken ∧
    Arch.reset ∉ (chosen [.restore Arch.reset]).taken := by decide

theorem witness_RestoreOfSnapshotRoundTrips_completing :
    let s := chosen [.snapshot, .tick, .load [0x60], .restore Arch.reset]
    s.schedule = .snapshot :: ([.tick, .load [0x60]] ++ .restore s.toArch :: []) ∧
    ∀ e ∈ [Event.tick, .load [0x60]], alwaysCompletes e = true := by decide

theorem witness_RestoreOfSnapshotRoundTrips :
    let s := chosen [.snapshot, .cpu, .setKey 1 true, .restore Arch.reset, .tick]
    s.schedule = .snapshot :: ([.cpu, .setKey 1 true] ++ .restore s.toArch :: [.tick]) ∧
    ∃ u, RunsTo 3 s u :=
  ⟨rfl, _, rfl⟩

theorem witness_InvariantHoldsAtReset :
    defaultParams.wf = true ∧ (⟨none, Vector.replicate 80 7⟩ : Params).wf = true ∧
    (⟨some 1, defaultFont⟩ : Params).wf = true ∧ (⟨some 0, defaultFont⟩ : Params).wf = false := by
  decide

theorem witness_NoStepChangesTheParameters : ∃ t, step State.reset = .next t := ⟨_, rfl⟩

theorem witness_EveryStepKeepsTheInvariant :
    State.reset.Inv ∧ ∃ t, step State.reset = .next t := by
  refine ⟨⟨by decide, ⟨by decide, by decide, ?_, ?_, rfl⟩, ?_⟩, _, rfl⟩
  · intro e h; cases h
  · exact Nat.zero_le 16
  · intro a h; cases h

theorem witness_EachPieceOfState_and_FlagRegister :
    (∃ t, exec (.ldI 0x300) State.reset = .next t ∧ t.i ≠ State.reset.i) ∧
    (∃ t, exec (.ldImm vf 5) State.reset = .next t ∧ t.reg vf ≠ State.reset.reg vf) :=
  ⟨⟨_, rfl, by decide⟩, ⟨_, rfl, by decide⟩⟩

theorem witness_InstructionsIgnoreTheEnvironment : ∀ x nn, Instr.cls ≠ .rnd x nn := by
  intro x nn h; cases h

end Sys2Proof.Tests
end

/-! ### The parameters STACK_DEPTH and FONT under every event (R5, R29)

One lemma per layer of a step: the skip, an instruction, the CPU step, an event. -/

namespace Sys2Proof.Machine

/-- A CPU step that completes runs the instruction of the fetched word, or only advances where the word
matches no row (R80, R85). -/
theorem cpuStep_next {s t : State} (h : cpuStep s = .next t) :
    (∃ op i, s.fetch = some op ∧ decodeWord op = some i ∧ exec i s = .next t) ∨
      (∃ op, s.fetch = some op ∧ decodeWord op = none ∧ t = s.advance) := by
  unfold cpuStep at h
  split at h
  · cases h
  · rename_i op hf
    split at h
    · rename_i i hd; exact .inl ⟨op, i, hf, hd, h⟩
    · rename_i hd; cases h; exact .inr ⟨op, hf, hd, rfl⟩

/-- A load that completes found room for the ROM and wrote memory alone (R201). -/
theorem loadRom_next {rom : List Byte} {s t : State} (h : loadRom rom s = .next t) :
    romFits rom.length = true ∧
      t = s.setMem (s.mem.writeAll s.params.font Config.romBase rom) := by
  unfold loadRom at h
  split at h
  · rename_i hr; cases h; exact ⟨hr, rfl⟩
  · cases h

/-- A restore that completes was given an earlier snapshot, and replaced the architectural state alone
(R190). -/
theorem restoreArch_next {a : Arch} {s t : State} (h : restoreArch a s = .next t) :
    a ∈ s.taken ∧ t = s.setArch a := by
  unfold restoreArch at h
  split at h
  · rename_i ha; cases h; exact ⟨ha, rfl⟩
  · cases h

@[simp] theorem State.skipIf_params (s : State) (c : Bool) : (s.skipIf c).params = s.params := by
  rw [State.skipIf_eq, State.setPc_params]

/-- No instruction writes the parameters. -/
theorem exec_params {i : Instr} {s t : State} (h : exec i s = .next t) : t.params = s.params := by
  cases i
  case ret => simp only [exec, execRet] at h; split at h <;> cases h; rfl
  case call => simp only [exec, execCall] at h; split at h <;> cases h; rfl
  case ldVxK => simp only [exec, execLdVxK] at h; split at h <;> cases h <;> rfl
  case seImm | sneImm | seReg | sneReg | skp | sknp => cases h; exact State.skipIf_params ..
  case ldMemVx => cases h; exact State.storeRegs_params ..
  case ldVxMem => cases h; exact State.loadRegs_params ..
  all_goals cases h; rfl

/-- No CPU step writes the parameters. -/
theorem cpuStep_params {s t : State} (h : cpuStep s = .next t) : t.params = s.params := by
  obtain ⟨-, i, -, -, hx⟩ | ⟨-, -, -, rfl⟩ := cpuStep_next h
  · exact exec_params hx
  · exact State.advance_params s

/-- No event writes the parameters: a reset and a restore replace the architectural state alone. -/
theorem deliver_params {e : Event} {s t : State} (h : deliver e s = .next t) :
    t.params = s.params := by
  cases e with
  | cpu => exact cpuStep_params h
  | load rom => obtain ⟨-, rfl⟩ := loadRom_next h; exact State.setMem_params ..
  | restore a => obtain ⟨-, rfl⟩ := restoreArch_next h; exact State.setArch_params ..
  | reset | tick | setKey | snapshot => cases h; rfl

/-- Settles O54: the step delivers one event to the state without it, and no event writes the
parameters. -/
theorem noStepChangesTheParameters : Obligations.NoStepChangesTheParameters := by
  intro s t h
  calc t.params = (s.setSchedule s.schedule.tail).params := deliver_params h
    _ = s.params := State.setSchedule_params ..

end Sys2Proof.Machine

/-! ### Decoding gives operands in range (R61, R71) -/

namespace Sys2Proof

theorem decodeTop0_wf {op : Word} {i : Instr} (h : decodeTop0 op = some i) : WellFormed i := by
  unfold decodeTop0 at h
  split at h
  · cases h; rfl
  · split at h <;> cases h; rfl

theorem decodeTop8_wf {op : Word} {i : Instr} (h : decodeTop8 op = some i) : WellFormed i := by
  unfold decodeTop8 at h
  split at h <;> cases h <;> rfl

theorem decodeTopE_wf {op : Word} {i : Instr} (h : decodeTopE op = some i) : WellFormed i := by
  unfold decodeTopE at h
  split at h <;> cases h <;> rfl

theorem decodeTopF_wf {op : Word} {i : Instr} (h : decodeTopF op = some i) : WellFormed i := by
  unfold decodeTopF at h
  split at h <;> cases h <;> rfl

/-- A field of 12 or of 4 bits is in the range that `Instr.wf` checks, by its type. -/
theorem decodeWord_wf {op : Word} {i : Instr} (h : decodeWord op = some i) : WellFormed i := by
  have haddr : (opNNN op).toNat < 4096 := (opNNN op).isLt
  have hrows : (opN op).toNat < 16 := (opN op).isLt
  unfold decodeWord at h
  split at h
  case h_1 => exact decodeTop0_wf h
  case h_9 => exact decodeTop8_wf h
  case h_15 => exact decodeTopE_wf h
  case h_16 => exact decodeTopF_wf h
  case h_6 | h_10 => split at h <;> cases h; rfl
  all_goals cases h; simp [WellFormed, Instr.wf, haddr, hrows]

/-! ### The writers of each piece of state (R20 to R27, R30)

What an instruction that completes can do to the state is said once, by `Effect`; the lemma of each
piece of state is a case split on it. -/

/-- The general registers an instruction may write (R20, R21). -/
def Instr.dests : Instr → List Reg
  | .ldImm x _ | .addImm x _ | .rnd x _ | .ldReg x _ | .orReg x _ | .andReg x _ | .xorReg x _
  | .ldVxDt x | .ldVxK x => [x]
  | .addReg x _ | .sub x _ | .subn x _ | .shr x _ | .shl x _ => [x, vf]
  | .drw _ _ _ => [vf]
  | .ldVxMem x => (List.finRange 16).filter (· ≤ x)
  | _ => []

theorem Instr.mem_dests_ldVxMem {r x : Reg} : r ∈ (Instr.ldVxMem x).dests ↔ r ≤ x := by
  simp [Instr.dests]

/-- The instruction is a skip (43_skip.md, R160, R161). -/
def Instr.IsSkip (i : Instr) : Prop :=
  ∃ x, (∃ nn, i = .seImm x nn ∨ i = .sneImm x nn) ∨ (∃ y, i = .seReg x y ∨ i = .sneReg x y) ∨
    i = .skp x ∨ i = .sknp x

end Sys2Proof

namespace Sys2Proof.Machine

/-- A return that completes popped an entry of the stack into `pc` (R110). -/
theorem execRet_next {s t : State} (h : execRet s = .next t) :
    ∃ w ∈ s.stack, t = s.drop.setPc w := by
  unfold execRet at h
  split at h
  · cases h
  · rename_i w hw; cases h; exact ⟨w, List.mem_of_getLast? hw, rfl⟩

/-- A call that completes found room and pushed the address of the next instruction (R112). -/
theorem execCall_next {n : Nat} {s t : State} (h : execCall n s = .next t) :
    s.full = false ∧ t = (s.push s.npc).setPc (zextAddr n) := by
  unfold execCall at h
  split at h
  · cases h
  · rename_i hf; cases h; exact ⟨by simpa using hf, rfl⟩

/-- The wait for a key writes the register and goes on, or leaves the state as it is (R162). -/
theorem execLdVxK_next {x : Reg} {s t : State} (h : execLdVxK x s = .next t) :
    t = s ∨ ∃ b, t = (s.setReg x b).advance := by
  unfold execLdVxK at h
  split at h <;> cases h
  · exact .inr ⟨_, rfl⟩
  · have hpc : s.npc - 2#16 = s.pc := BitVec.add_sub_cancel ..
    exact .inl (by rw [hpc]; rfl)

/-- The shapes of what an instruction that completes does to the state. Where a piece of state has few
writers, the constructor that writes it names them; `regs` covers every instruction that writes
general registers and draws bytes, and nothing else, before the default advance. -/
inductive Effect (s : State) : Instr → State → Prop
  | regs {i : Instr} (v : Vector Byte 16) (d : Nat)
      (hv : ∀ r : Reg, r ∉ i.dests → v[r.val] = s.reg r) :
      Effect s i ({ s with v := v, draws := d } : State).advance
  | skip {i : Instr} (c : Bool) (hi : i.IsSkip) :
      Effect s i (s.setPc (s.pc + if c then 4#16 else 2#16))
  | wait (x : Reg) : Effect s (.ldVxK x) s
  | jump {i : Instr} (w : Word) (hi : ∃ n, i = .jp n ∨ i = .jpV0 n) : Effect s i (s.setPc w)
  | call (n : Nat) : Effect s (.call n) ((s.push s.npc).setPc (zextAddr n))
  | ret (w : Word) : Effect s .ret (s.drop.setPc w)
  | index {i : Instr} (w : Word) (hi : (∃ n, i = .ldI n) ∨ (∃ x, i = .addI x) ∨ ∃ x, i = .ldF x) :
      Effect s i (s.setI w).advance
  | delay (x : Reg) : Effect s (.ldDtVx x) (s.setDt (s.reg x)).advance
  | sound (x : Reg) : Effect s (.ldStVx x) (s.setSt (s.reg x)).advance
  | clear : Effect s .cls (s.setFb Frame.blank).advance
  | draw (x y : Reg) (n : Nat) (f : Frame) (b : Byte) :
      Effect s (.drw x y n) ((s.setFb f).setReg vf b).advance
  | memory {i : Instr} (m : Memory) (hi : (∃ x, i = .ldB x) ∨ ∃ x, i = .ldMemVx x) :
      Effect s i (s.setMem m).advance

/-- One register written, then the default advance. -/
theorem Effect.setReg {s : State} {i : Instr} {x : Reg} (hx : x ∈ i.dests) (b : Byte) :
    Effect s i (s.setReg x b).advance :=
  .regs (s.setReg x b).v s.draws fun _ hr => s.setReg_reg_ne b (ne_of_mem_of_not_mem hx hr)

/-- Two registers written, then the default advance. -/
theorem Effect.setReg₂ {s : State} {i : Instr} {x y : Reg} (hx : x ∈ i.dests) (hy : y ∈ i.dests)
    (b c : Byte) : Effect s i ((s.setReg x b).setReg y c).advance :=
  .regs ((s.setReg x b).setReg y c).v s.draws fun _ hr =>
    ((s.setReg x b).setReg_reg_ne c (ne_of_mem_of_not_mem hy hr)).trans
      (s.setReg_reg_ne b (ne_of_mem_of_not_mem hx hr))

/-- A skip, in the form of `State.skipIf`. -/
theorem Effect.skipIf {s : State} {i : Instr} (hi : i.IsSkip) (c : Bool) :
    Effect s i (s.skipIf c) := by
  rw [State.skipIf_eq]; exact .skip c hi

/-- FX65 writes the registers up to `x` (R155). -/
theorem Effect.loadRegs (s : State) (x : Reg) :
    Effect s (.ldVxMem x) (s.loadRegs (x.val + 1)).advance := by
  rw [State.loadRegs_eq]
  refine .regs _ s.draws fun r hr => ?_
  have hlt : ¬ r.val < x.val + 1 := fun hlt =>
    hr (Instr.mem_dests_ldVxMem.mpr (Nat.le_of_lt_succ hlt))
  exact (s.loadRegs_reg x.isLt r).trans (if_neg hlt)

/-- Every instruction that completes has one of the effects (R84). -/
theorem exec_effect {i : Instr} {s t : State} (h : exec i s = .next t) : Effect s i t := by
  cases i with
  | cls => cases h; exact .clear
  | ret => obtain ⟨w, -, rfl⟩ := execRet_next h; exact .ret w
  | jp n => cases h; exact .jump _ ⟨n, .inl rfl⟩
  | jpV0 n => cases h; exact .jump _ ⟨n, .inr rfl⟩
  | call n => obtain ⟨-, rfl⟩ := execCall_next h; exact .call n
  | seImm x nn => cases h; exact .skipIf ⟨x, .inl ⟨nn, .inl rfl⟩⟩ _
  | sneImm x nn => cases h; exact .skipIf ⟨x, .inl ⟨nn, .inr rfl⟩⟩ _
  | seReg x y => cases h; exact .skipIf ⟨x, .inr (.inl ⟨y, .inl rfl⟩)⟩ _
  | sneReg x y => cases h; exact .skipIf ⟨x, .inr (.inl ⟨y, .inr rfl⟩)⟩ _
  | skp x => cases h; exact .skipIf ⟨x, .inr (.inr (.inl rfl))⟩ _
  | sknp x => cases h; exact .skipIf ⟨x, .inr (.inr (.inr rfl))⟩ _
  | ldImm | addImm | ldReg | orReg | andReg | xorReg | ldVxDt =>
    cases h; exact .setReg (List.mem_singleton_self _) _
  | rnd x nn =>
    cases h
    exact .regs (i := .rnd x nn) (s.setReg x (Config.randByte s.draws &&& nn)).v (s.draws + 1)
      fun _ hr => s.setReg_reg_ne _ (ne_of_mem_of_not_mem (List.mem_singleton_self x) hr)
  | addReg | sub | subn | shr | shl =>
    cases h
    exact .setReg₂ (by simp [Instr.dests]) (by simp [Instr.dests]) _ _
  | ldVxK x =>
    obtain rfl | ⟨b, rfl⟩ := execLdVxK_next h
    · exact .wait x
    · exact .setReg (List.mem_singleton_self x) b
  | ldVxMem x => cases h; exact .loadRegs s x
  | ldI n => cases h; exact .index _ (.inl ⟨n, rfl⟩)
  | addI x => cases h; exact .index _ (.inr (.inl ⟨x, rfl⟩))
  | ldF x => cases h; exact .index _ (.inr (.inr ⟨x, rfl⟩))
  | ldDtVx x => cases h; exact .delay x
  | ldStVx x => cases h; exact .sound x
  | drw x y n => cases h; exact .draw x y n _ _
  | ldB x => cases h; exact .memory _ (.inl ⟨x, rfl⟩)
  | ldMemVx x => cases h; rw [State.storeRegs_eq]; exact .memory _ (.inr ⟨x, rfl⟩)

section
variable {i : Instr} {s t : State} (h : exec i s = .next t)
include h

/-- The general registers (R20, R21). -/
theorem exec_reg {r : Reg} (hr : r ∉ i.dests) : t.reg r = s.reg r := by
  cases exec_effect h with
  | regs v d hv => exact hv r hr
  | draw x y n f b =>
    exact (s.setFb f).setReg_reg_ne b (ne_of_mem_of_not_mem (List.mem_singleton_self vf) hr)
  | _ => rfl

/-- The program counter (R23, R82). -/
theorem exec_pc : Advanced 2 s t ∨ (Advanced 4 s t ∧ i.IsSkip) ∨ (t.pc = s.pc ∧ ∃ x, i = .ldVxK x) ∨
    (∃ n, i = .jp n ∨ i = .call n ∨ i = .jpV0 n) ∨ i = .ret := by
  cases exec_effect h with
  | skip c hi =>
    cases c with
    | true => exact .inr (.inl ⟨by simp [Advanced, BitVec.toNat_add], hi⟩)
    | false => exact .inl (by simp [Advanced, BitVec.toNat_add])
  | wait x => exact .inr (.inr (.inl ⟨rfl, x, rfl⟩))
  | jump w hi => obtain ⟨n, rfl | rfl⟩ := hi <;> simp
  | call n => simp
  | ret => simp
  | _ => exact .inl (.advance rfl)

/-- The index register (R22). -/
theorem exec_i : t.i = s.i ∨ (∃ n, i = .ldI n) ∨ (∃ x, i = .addI x) ∨ ∃ x, i = .ldF x := by
  cases exec_effect h with
  | index w hi => exact .inr hi
  | _ => exact .inl rfl

/-- The stack (R24). -/
theorem exec_stack : t.stack = s.stack ∨ (∃ n, i = .call n) ∨ i = .ret := by
  cases exec_effect h with
  | call n => exact .inr (.inl ⟨n, rfl⟩)
  | ret => exact .inr (.inr rfl)
  | _ => exact .inl rfl

/-- The delay timer (R25). -/
theorem exec_dt : t.dt = s.dt ∨ ∃ x, i = .ldDtVx x := by
  cases exec_effect h with
  | delay x => exact .inr ⟨x, rfl⟩
  | _ => exact .inl rfl

/-- The sound timer (R25). -/
theorem exec_st : t.st = s.st ∨ ∃ x, i = .ldStVx x := by
  cases exec_effect h with
  | sound x => exact .inr ⟨x, rfl⟩
  | _ => exact .inl rfl

/-- The display (R26). -/
theorem exec_fb : t.fb = s.fb ∨ i = .cls ∨ ∃ x y n, i = .drw x y n := by
  cases exec_effect h with
  | clear => exact .inr (.inl rfl)
  | draw x y n => exact .inr (.inr ⟨x, y, n, rfl⟩)
  | _ => exact .inl rfl

/-- The memory (R27). -/
theorem exec_mem : t.mem = s.mem ∨ (∃ x, i = .ldB x) ∨ ∃ x, i = .ldMemVx x := by
  cases exec_effect h with
  | memory m hi => exact .inr hi
  | _ => exact .inl rfl

/-- The keys, which no instruction writes (R30). -/
theorem exec_key : t.key = s.key := by
  cases exec_effect h <;> rfl

/-- The snapshots in the host's hands, which no instruction writes (R190). -/
theorem exec_taken : t.taken = s.taken := by
  cases exec_effect h <;> rfl

end

/-- The instructions that have a register as a destination, listed as R20 and R21 do. -/
theorem writer_of_mem_dests {i : Instr} {r : Reg} (hr : r ∈ i.dests) :
    (∃ nn, i = .ldImm r nn ∨ i = .addImm r nn ∨ i = .rnd r nn) ∨
    (∃ y, i = .ldReg r y ∨ i = .orReg r y ∨ i = .andReg r y ∨ i = .xorReg r y) ∨
    (∃ y, i = .addReg r y ∨ i = .sub r y ∨ i = .subn r y ∨ i = .shr r y ∨ i = .shl r y) ∨
    i = .ldVxDt r ∨ i = .ldVxK r ∨ (∃ x, r ≤ x ∧ i = .ldVxMem x) ∨
    (r = vf ∧ ∃ x y, i = .addReg x y ∨ i = .sub x y ∨ i = .subn x y ∨ i = .shr x y ∨
      i = .shl x y ∨ ∃ n, i = .drw x y n) := by
  cases i with
  | ldImm | addImm | rnd | ldReg | orReg | andReg | xorReg | ldVxDt | ldVxK =>
    obtain rfl := List.mem_singleton.mp hr
    simp
  | addReg | sub | subn | shr | shl =>
    obtain rfl | rfl : r = _ ∨ r = vf := by simpa [Instr.dests] using hr
    all_goals simp
  | drw =>
    obtain rfl := List.mem_singleton.mp hr
    simp
  | ldVxMem x => simpa using Instr.mem_dests_ldVxMem.mp hr
  | _ => cases hr

/-- Settles O56: one lemma for each piece of state. -/
theorem eachPieceOfStateHasItsWriters : Obligations.EachPieceOfStateHasItsWriters := by
  intro i s t h
  refine ⟨fun r => ?_, exec_pc h, exec_i h, exec_stack h, exec_dt h, exec_st h, exec_fb h,
    exec_mem h, exec_key h⟩
  by_cases hr : r ∈ i.dests
  · exact .inr (writer_of_mem_dests hr)
  · exact .inl (exec_reg h hr)

/-- Settles O57: the register clause of O56 at VF, where FX65 reaches VF only with `x` = F. -/
theorem flagRegisterHasItsWriters : Obligations.FlagRegisterHasItsWriters := by
  intro i s t h
  obtain ⟨hreg, -⟩ := eachPieceOfStateHasItsWriters i s t h
  rcases hreg vf with hr | hnn | hy | ⟨y, hf⟩ | hdt | hk | ⟨x, hx, rfl⟩ | ⟨-, x, y, hf⟩
  · exact .inl hr
  · exact .inr (.inr (.inr (.inl hnn)))
  · exact .inr (.inr (.inr (.inr (.inl hy))))
  · exact .inr (.inl ⟨vf, y, hf⟩)
  · simp [hdt]
  · simp [hk]
  · have hxf : x = vf := le_antisymm (Fin.le_last x) hx
    simp [hxf]
  · obtain hf | hf | hf | hf | hf | ⟨n, hf⟩ := hf
    all_goals simp [hf]

/-! ### The invariant of reachable states (R33) -/

/-- An address of 12 bits is at most 0x0FFF (R63). -/
theorem zextAddr_le {n : Nat} (h : n < 4096) : (zextAddr n).toNat ≤ 0x0FFF := by
  simp only [zextAddr, BitVec.toNat_ofNat]; omega

/-- The sum of FX1E is reduced to 12 bits (R151). -/
theorem indexSum_le (w : Word) (b : Byte) : (indexSum w b).toNat ≤ 0x0FFF := by
  simp only [indexSum, BitVec.toNat_ofNat]; omega

/-- Five times a byte is far below 4096 (R152). -/
theorem glyphAddr_le (b : Byte) : (glyphAddr b).toNat ≤ 0x0FFF := by
  have hb := b.isLt
  rw [glyphAddr, BitVec.toNat_ofNat, Nat.mod_eq_of_lt] <;> omega

/-- A byte added to an address of 12 bits is at most 0x0FFF + 0xFF (R113). -/
theorem jumpOffset_le (b : Byte) {n : Nat} (h : n < 4096) : (jumpOffset b n).toNat ≤ 0x10FE := by
  simp only [jumpOffset, BitVec.toNat_ofNat]; omega

/-- A stack with fewer entries than one that fits, fits (R24). -/
theorem stackFits.mono {depth : Option Nat} {m n : Nat} (hmn : m ≤ n) (h : stackFits depth n) :
    stackFits depth m := by
  cases depth with
  | none => trivial
  | some d => exact hmn.trans h

theorem State.advance_memWf (s : State) : s.advance.memWf = s.memWf := rfl

section
variable {i : Instr} {s t : State} (h : exec i s = .next t)
include h

/-- `I <= 0x0FFF` is kept (R22). -/
theorem exec_index_le (hwf : WellFormed i) (hi : s.i.toNat ≤ 0x0FFF) : t.i.toNat ≤ 0x0FFF := by
  obtain he | ⟨n, rfl⟩ | ⟨x, rfl⟩ | ⟨x, rfl⟩ := exec_i h
  · rwa [he]
  · cases h; exact zextAddr_le (by simpa [WellFormed, Instr.wf] using hwf)
  · cases h; exact indexSum_le ..
  · cases h; exact glyphAddr_le _

/-- From a `pc` that was fetched, `pc <= 0x10FE` after the instruction (R23, R113). -/
theorem exec_pc_le (hwf : WellFormed i) (hpc : s.pc.toNat < 0x0FFF)
    (hentries : ∀ e ∈ s.stack, 2 ≤ e.toNat ∧ e.toNat ≤ 0x1000) : t.pc.toNat ≤ 0x10FE := by
  obtain hadv | ⟨hadv, -⟩ | ⟨he, -⟩ | ⟨n, rfl | rfl | rfl⟩ | rfl := exec_pc h
  · unfold Advanced at hadv; omega
  · unfold Advanced at hadv; omega
  · rw [he]; omega
  · cases h
    exact (zextAddr_le (by simpa [WellFormed, Instr.wf] using hwf)).trans (by decide)
  · obtain ⟨-, rfl⟩ := execCall_next h
    exact (zextAddr_le (by simpa [WellFormed, Instr.wf] using hwf)).trans (by decide)
  · cases h
    exact jumpOffset_le _ (by simpa [WellFormed, Instr.wf] using hwf)
  · obtain ⟨w, hw, rfl⟩ := execRet_next h
    exact (hentries w hw).2.trans (by decide)

/-- A call pushes the address after a fetched instruction, so every entry stays between 2 and 0x1000
(R24, R112). -/
theorem exec_entries (hpc : s.pc.toNat < 0x0FFF)
    (hentries : ∀ e ∈ s.stack, 2 ≤ e.toNat ∧ e.toNat ≤ 0x1000) :
    ∀ e ∈ t.stack, 2 ≤ e.toNat ∧ e.toNat ≤ 0x1000 := by
  obtain he | ⟨n, rfl⟩ | rfl := exec_stack h
  · rwa [he]
  · obtain ⟨-, rfl⟩ := execCall_next h
    have hnpc : s.npc.toNat = s.pc.toNat + 2 := by
      simp only [State.npc, BitVec.toNat_add, BitVec.toNat_ofNat]; omega
    intro e he
    obtain he | he := List.mem_append.mp (show e ∈ s.stack ++ [s.npc] from he)
    · exact hentries e he
    · obtain rfl := List.mem_singleton.mp he
      omega
  · obtain ⟨w, -, rfl⟩ := execRet_next h
    exact fun e he => hentries e (List.mem_of_mem_dropLast he)

/-- A call that completes found room, so `SP` stays within STACK_DEPTH (R24, R112). -/
theorem exec_stackFits (hfits : stackFits s.params.depth s.stack.length) :
    stackFits s.params.depth t.stack.length := by
  obtain he | ⟨n, rfl⟩ | rfl := exec_stack h
  · rwa [he]
  · obtain ⟨hroom, rfl⟩ := execCall_next h
    simpa [State.push] using s.not_full_iff.mp hroom
  · obtain ⟨w, -, rfl⟩ := execRet_next h
    exact hfits.mono (by simp [State.drop])

/-- The stores keep the canonical form of memory (R27). -/
theorem exec_memWf (hmem : s.memWf = true) : t.memWf = true := by
  obtain he | ⟨x, rfl⟩ | ⟨x, rfl⟩ := exec_mem h
  · rw [State.memWf, he, exec_params h]; exact hmem
  · cases h
    rw [State.advance_memWf]
    exact State.store_wf (State.store_wf (State.store_wf hmem 0 _) 1 _) 2 _
  · cases h
    rw [State.advance_memWf]
    exact State.storeRegs_wf hmem _

/-- A decoded instruction keeps the invariant from every state it was fetched in. -/
theorem exec_inv (hwf : WellFormed i) (hpc : s.pc.toNat < 0x0FFF) (hs : s.Inv) : t.Inv := by
  obtain ⟨hparams, ⟨hindex, -, hentries, hdepth, hmem⟩, htaken⟩ := hs
  have hp : t.params = s.params := exec_params h
  have hm : t.memWf = true := exec_memWf h hmem
  rw [State.memWf, hp] at hm
  constructor
  case params => rwa [hp]
  case taken => rwa [hp, exec_taken h]
  case arch =>
    rw [hp]
    exact ⟨exec_index_le h hwf hindex, exec_pc_le h hwf hpc hentries, exec_entries h hpc hentries,
      exec_stackFits h hdepth, hm⟩

end

/-- A fetch that succeeds has `pc` below 0x0FFF (R46, R81). -/
theorem State.pc_lt_of_fetch {s : State} {op : Word} (h : s.fetch = some op) :
    s.pc.toNat < 0x0FFF := by
  by_contra hpc
  rw [s.fetch_none.mpr (not_lt.mp hpc)] at h
  cases h

/-- A CPU step keeps the invariant: the fetch bounds `pc`, the decoder bounds the operands. -/
theorem cpuStep_inv {s t : State} (hs : s.Inv) (h : cpuStep s = .next t) : t.Inv := by
  obtain ⟨op, i, hf, hd, hx⟩ | ⟨op, hf, -, rfl⟩ := cpuStep_next h
  · exact exec_inv hx (decodeWord_wf hd) (State.pc_lt_of_fetch hf) hs
  · have hpc : s.advance.pc.toNat ≤ 0x10FE := by
      have := State.pc_lt_of_fetch hf
      rw [s.advance_pc_toNat]; omega
    exact ⟨hs.params, { hs.arch with counter := hpc }, hs.taken⟩

/-- The architectural state of reset meets the invariant for any parameters (R32). -/
theorem Arch.reset_inv (p : Params) : Arch.reset.Inv p where
  index := by decide
  counter := by decide
  entries := by simp [Arch.reset]
  depth := by
    cases hd : p.depth with
    | none => trivial
    | some d => exact Nat.zero_le d
  memory := Memory.wf_reset p

/-- Every event keeps the invariant: a restore because it holds of the snapshots, a load because
it keeps the form of memory; a tick and a key write no field that it speaks of. -/
theorem deliver_inv {e : Event} {s t : State} (hs : s.Inv) (h : deliver e s = .next t) : t.Inv := by
  cases e with
  | cpu => exact cpuStep_inv hs h
  | reset => cases h; exact ⟨hs.params, Arch.reset_inv _, hs.taken⟩
  | load rom =>
    obtain ⟨-, rfl⟩ := loadRom_next h
    exact ⟨hs.params, { hs.arch with memory := Memory.wf_writeAll rom hs.arch.memory _ }, hs.taken⟩
  | restore a =>
    obtain ⟨ha, rfl⟩ := restoreArch_next h
    exact ⟨hs.params, hs.taken a ha, hs.taken⟩
  | snapshot =>
    cases h
    refine ⟨hs.params, hs.arch, fun a ha => ?_⟩
    obtain ha | ha := List.mem_append.mp (show a ∈ s.taken ++ [s.toArch] from ha)
    · exact hs.taken a ha
    · obtain rfl := List.mem_singleton.mp ha
      exact hs.arch
  | tick | setKey => cases h; exact ⟨hs.params, { hs.arch with }, hs.taken⟩

/-- Settles O55: the step delivers one event to the state without it, which meets the invariant. -/
theorem everyStepKeepsTheInvariant : Obligations.EveryStepKeepsTheInvariant := by
  intro s t hs h
  have hs' : (s.setSchedule s.schedule.tail).Inv := ⟨hs.params, hs.arch, hs.taken⟩
  exact deliver_inv hs' h

/-- Settles O53: the reset values meet the invariant, and no snapshot has been taken. -/
theorem invariantHoldsAtReset : Obligations.InvariantHoldsAtReset := by
  intro p es hp
  have htaken : ∀ a ∈ ((State.resetOf p).setSchedule es).taken, a.Inv p := by simp [State.resetOf]
  exact ⟨hp, Arch.reset_inv p, htaken⟩

end Sys2Proof.Machine

/-! ### An instruction stored by FX55 in front of `pc` (R52, R80, R154) -/

namespace Sys2Proof.Machine

/-- Where the fetch is in bounds and its two bytes decode, the CPU step runs the decoded instruction
(R80). -/
theorem cpuStep_of_decode {s : State} {i : Instr} {rest : List Byte} (hpc : s.pc.toNat < 0x0FFF)
    (h : decode s.fetchBytes = .ok i rest) : cpuStep s = exec i s := by
  simp only [State.fetchBytes, decode] at h
  split at h
  · rename_i j hj
    cases h
    simp only [cpuStep, State.fetch_some hpc, hj]
  · cases h

/-- The block store leaves the chosen events as they are. -/
@[simp] theorem State.storeRegs_schedule (s : State) (n : Nat) :
    (s.storeRegs n).schedule = s.schedule := by
  rw [State.storeRegs_eq]; rfl

/-- The block store leaves the program counter as it is. -/
@[simp] theorem State.storeRegs_pc (s : State) (n : Nat) : (s.storeRegs n).pc = s.pc := by
  rw [State.storeRegs_eq]; rfl

/-- With `I = pc + 2`, the bytes of the next instruction are at `EA(0)` and `EA(1)` (R42, R45). -/
theorem State.fetchAddr_npc {s : State} (hi : s.i.toNat = s.pc.toNat + 2) (k : Nat) :
    fetchAddr (s.pc + 2#16) k = s.ea k := by
  have hnpc : (s.pc + 2#16).toNat = s.i.toNat := by
    have := s.i.isLt
    rw [BitVec.toNat_add, BitVec.toNat_ofNat]; omega
  rw [fetchAddr, State.ea, hnpc]

/-- With `I = pc + 2`, a block store of V[0] and V[1] at least is fetched back after the default
advance (R52, R154). -/
theorem State.storeRegs_fetchBytes {s : State} (hi : s.i.toNat = s.pc.toNat + 2) {n : Nat}
    (hn : 2 ≤ n) (hn' : n ≤ 4096) :
    (s.storeRegs n).advance.fetchBytes = [s.reg 0, s.reg 1] := by
  have h0 : (s.storeRegs n).read (s.ea 0) = s.reg 0 := s.storeRegs_read hn' (by omega)
  have h1 : (s.storeRegs n).read (s.ea 1) = s.reg 1 := s.storeRegs_read hn' (by omega)
  simp only [State.fetchBytes, State.advance_pc, State.storeRegs_pc, State.fetchAddr_npc hi,
    State.advance_read, h0, h1]

/-- Settles O41: after the store and the default advance the fetch reads the bytes of V[0] and V[1],
and taking the chosen event off its list changes neither memory nor `pc`. -/
theorem storedInstructionRunsOnTheNextStep : Obligations.StoredInstructionRunsOnTheNextStep := by
  intro x s i hx hi hpc hev hd
  let t := (s.storeRegs (x.val + 1)).advance
  have hsched : t.schedule = s.schedule := s.storeRegs_schedule _
  have hcpu : nextEvent t = .cpu := by rw [nextEvent, hsched]; exact hev
  have hbytes : t.fetchBytes = [s.reg 0, s.reg 1] :=
    State.storeRegs_fetchBytes hi (by omega) (by omega)
  have hdec : decode t.fetchBytes = .ok i [] := by rw [hbytes]; exact hd
  have hfetch : t.pc.toNat < 0x0FFF := by
    rw [State.advance_pc_toNat, State.storeRegs_pc]; omega
  refine ⟨t, rfl, ?_⟩
  calc step t = cpuStep (t.setSchedule s.schedule.tail) := by rw [step_of_cpu hcpu, hsched]
    _ = exec i (t.setSchedule s.schedule.tail) := cpuStep_of_decode hfetch hdec

end Sys2Proof.Machine

/-! ### The decoder and the encoder are inverse (R61, R64, R65, R71)

A word decodes to an instruction exactly when it is a word of the instruction: it agrees with the
instruction's row under the row's mask, and its fields hold the operands. The one word of a
well-formed instruction is its encoding. -/

namespace Sys2Proof

/-- The operands of the instruction are the fields of the word (R61), by the format (R62). -/
def Instr.OperandsFrom (op : Word) : Instr → Prop
  | .cls | .ret => True
  | .jp nnn | .call nnn | .ldI nnn | .jpV0 nnn => nnn = op.toNat % 4096
  | .seImm x nn | .sneImm x nn | .ldImm x nn | .addImm x nn | .rnd x nn =>
    x = Fin.ofNat 16 (op.toNat / 256) ∧ nn = BitVec.ofNat 8 op.toNat
  | .seReg x y | .sneReg x y | .ldReg x y | .orReg x y | .andReg x y | .xorReg x y | .addReg x y
  | .sub x y | .shr x y | .subn x y | .shl x y =>
    x = Fin.ofNat 16 (op.toNat / 256) ∧ y = Fin.ofNat 16 (op.toNat / 16)
  | .drw x y n =>
    x = Fin.ofNat 16 (op.toNat / 256) ∧ y = Fin.ofNat 16 (op.toNat / 16) ∧ n = op.toNat % 16
  | .skp x | .sknp x | .ldVxDt x | .ldVxK x | .ldDtVx x | .ldStVx x | .addI x | .ldF x | .ldB x
  | .ldMemVx x | .ldVxMem x => x = Fin.ofNat 16 (op.toNat / 256)

/-- The word agrees with the row of the instruction under the row's mask and holds its operands
(R61, R64). -/
structure Instr.IsWord (i : Instr) (op : Word) : Prop where
  agrees : op &&& i.maskBits = i.matchBits &&& i.maskBits
  operands : i.OperandsFrom op

/-! #### Agreement under a mask of R64, as arithmetic on the fields -/

/-- The mask 0xFFFF keeps the whole word. -/
theorem mask_FFFF (op : Word) : (op &&& 0xFFFF#16).toNat = op.toNat :=
  congrArg BitVec.toNat BitVec.and_allOnes

section
variable {op v : Word}

theorem and_FFFF_eq_iff : op &&& 0xFFFF#16 = v &&& 0xFFFF#16 ↔ op = v := by
  rw [← BitVec.toNat_inj, mask_FFFF, mask_FFFF, BitVec.toNat_inj]

theorem and_F000_eq_iff :
    op &&& 0xF000#16 = v &&& 0xF000#16 ↔ op.toNat / 4096 = v.toNat / 4096 := by
  rw [← BitVec.toNat_inj, mask_F000, mask_F000]
  omega

theorem and_F00F_eq_iff :
    op &&& 0xF00F#16 = v &&& 0xF00F#16 ↔
      op.toNat / 4096 = v.toNat / 4096 ∧ op.toNat % 16 = v.toNat % 16 := by
  rw [← BitVec.toNat_inj, mask_F00F, mask_F00F]
  omega

theorem and_F0FF_eq_iff :
    op &&& 0xF0FF#16 = v &&& 0xF0FF#16 ↔
      op.toNat / 4096 = v.toNat / 4096 ∧ op.toNat % 256 = v.toNat % 256 := by
  rw [← BitVec.toNat_inj, mask_F0FF, mask_F0FF]
  omega

end

/-! #### The decoder follows the opcode map -/

/-- A word of an instruction decodes to it: the fixed bits of its row, which differ from row to row,
take the decoder to the instruction's branch (R64). -/
theorem decodeWord_of_isWord {i : Instr} {op : Word} (h : i.IsWord op) :
    decodeWord op = some i := by
  obtain ⟨hrow, hops⟩ := h
  cases i
  case cls | ret =>
    obtain rfl := and_FFFF_eq_iff.mp hrow
    rfl
  case jp | call | ldI | jpV0 | seImm | sneImm | ldImm | addImm | rnd | drw =>
    have htop := and_F000_eq_iff.mp hrow
    simp only [Instr.OperandsFrom] at hops
    simp [decodeWord, opTop_toNat, htop, Instr.matchBits, opX_eq, opY_eq, opN_toNat, opNN_eq,
      opNNN_toNat, hops]
  case seReg | sneReg | ldReg | orReg | andReg | xorReg | addReg | sub | shr | subn | shl =>
    obtain ⟨htop, hn⟩ := and_F00F_eq_iff.mp hrow
    simp only [Instr.OperandsFrom] at hops
    simp [decodeWord, decodeTop8, opTop_toNat, htop, opN_eq_zero, opN_toNat, hn, Instr.matchBits,
      opX_eq, opY_eq, hops]
  case skp | sknp | ldVxDt | ldVxK | ldDtVx | ldStVx | addI | ldF | ldB | ldMemVx | ldVxMem =>
    obtain ⟨htop, hnn⟩ := and_F0FF_eq_iff.mp hrow
    simp only [Instr.OperandsFrom] at hops
    simp [decodeWord, decodeTopE, decodeTopF, opTop_toNat, htop, opNN_toNat, hnn, Instr.matchBits,
      opX_eq, hops]

section
variable {op : Word} {i : Instr}

theorem isWord_of_decodeTop0 (h : decodeTop0 op = some i) : i.IsWord op := by
  unfold decodeTop0 at h
  split_ifs at h with hop hop <;> cases h
  all_goals
    subst hop
    exact ⟨rfl, trivial⟩

theorem isWord_of_decodeTop8 (htop : op.toNat / 4096 = 8) (h : decodeTop8 op = some i) :
    i.IsWord op := by
  unfold decodeTop8 at h
  simp only [opN_toNat] at h
  split at h <;> cases h
  all_goals
    rename_i hn
    exact ⟨and_F00F_eq_iff.mpr (by simp [Instr.matchBits, htop, hn]), opX_eq op, opY_eq op⟩

theorem isWord_of_decodeTopE (htop : op.toNat / 4096 = 14) (h : decodeTopE op = some i) :
    i.IsWord op := by
  unfold decodeTopE at h
  simp only [opNN_toNat] at h
  split at h <;> cases h
  all_goals
    rename_i hnn
    exact ⟨and_F0FF_eq_iff.mpr (by simp [Instr.matchBits, htop, hnn]), opX_eq op⟩

theorem isWord_of_decodeTopF (htop : op.toNat / 4096 = 15) (h : decodeTopF op = some i) :
    i.IsWord op := by
  unfold decodeTopF at h
  simp only [opNN_toNat] at h
  split at h <;> cases h
  all_goals
    rename_i hnn
    exact ⟨and_F0FF_eq_iff.mpr (by simp [Instr.matchBits, htop, hnn]), opX_eq op⟩

theorem isWord_of_decodeWord (h : decodeWord op = some i) : i.IsWord op := by
  unfold decodeWord at h
  simp only [opTop_toNat] at h
  split at h
  case h_1 => exact isWord_of_decodeTop0 h
  case h_9 htop => exact isWord_of_decodeTop8 htop h
  case h_15 htop => exact isWord_of_decodeTopE htop h
  case h_16 =>
    have htop : op.toNat / 4096 = 15 := by
      have := op.isLt
      simp only [imp_false] at *
      omega
    exact isWord_of_decodeTopF htop h
  case h_6 htop | h_10 htop =>
    split at h <;> cases h
    rename_i hn
    rw [opN_eq_zero] at hn
    exact ⟨and_F00F_eq_iff.mpr (by simp [Instr.matchBits, htop, hn]), opX_eq op, opY_eq op⟩
  all_goals
    rename_i htop
    cases h
    exact ⟨and_F000_eq_iff.mpr (by simp [Instr.matchBits, htop]),
      by simp [Instr.OperandsFrom, opX_eq, opY_eq, opN_toNat, opNN_eq, opNNN_toNat]⟩

end

/-- The opcode map of R64 read both ways. -/
theorem decodeWord_eq_some_iff {op : Word} {i : Instr} :
    decodeWord op = some i ↔ i.IsWord op :=
  ⟨isWord_of_decodeWord, decodeWord_of_isWord⟩

/-- Settles O2: the word agrees with the row, and the instruction is given with the word's own
fields. -/
theorem everyPatternSelectsItsInstruction : Obligations.EveryPatternSelectsItsInstruction := by
  have row (op : Word) (i : Instr) (hops : i.OperandsFrom op)
      (h : op &&& i.maskBits = i.matchBits) : decodeWord op = some i :=
    decodeWord_eq_some_iff.mpr ⟨h.trans (Laws.EncodeMatches.match_in_mask i).symm, hops⟩
  intro op x y n nn nnn
  and_intros
  all_goals
    refine fun h => row op _ ?_ h
    simp [Instr.OperandsFrom, x, y, n, nn, nnn]

/-! #### The encoding is the one word of a well-formed instruction -/

/-- Operands lie outside the mask of the row (R62). -/
theorem operandBits_and_maskBits (i : Instr) : i.operandBits &&& i.maskBits = 0#16 := by
  cases i
  case cls | ret => rfl
  case jp | call | ldI | jpV0 => exact Laws.EncodeMatches.addr_disjoint _
  case seImm | sneImm | ldImm | addImm | rnd => exact Laws.EncodeMatches.imm_disjoint _ _
  case drw => exact Laws.EncodeMatches.draw_disjoint _ _ _
  case seReg | sneReg | ldReg | orReg | andReg | xorReg | addReg | sub | shr | subn | shl =>
    exact Laws.EncodeMatches.regs_disjoint _ _
  case skp | sknp | ldVxDt | ldVxK | ldDtVx | ldStVx | addI | ldF | ldB | ldMemVx | ldVxMem =>
    exact Laws.EncodeMatches.reg_disjoint _

theorem encodeWord_and_maskBits (i : Instr) : encodeWord i &&& i.maskBits = i.matchBits :=
  Laws.EncodeMatches.of_disjoint (operandBits_and_maskBits i)

theorem matchBits_and_operandBits (i : Instr) : i.matchBits &&& i.operandBits = 0#16 := by
  rw [← Laws.EncodeMatches.match_in_mask, BitVec.and_assoc, BitVec.and_comm i.maskBits,
    operandBits_and_maskBits, BitVec.and_zero]

/-- The OR of R71 joins disjoint bits, so it is a sum. -/
theorem encodeWord_toNat (i : Instr) :
    (encodeWord i).toNat = i.matchBits.toNat + i.operandBits.toNat := by
  have h := matchBits_and_operandBits i
  rw [encodeWord, ← BitVec.add_eq_or_of_and_eq_zero _ _ h, BitVec.toNat_add_of_and_eq_zero h]

theorem putX_toNat (x : Reg) : (putX x).toNat = x.val * 256 := by revert x; decide

theorem putX_or_putY_toNat (x y : Reg) : (putX x ||| putY y).toNat = x.val * 256 + y.val * 16 := by
  revert x y; decide

theorem putX_or_imm_toNat (x : Reg) (nn : Byte) :
    (putX x ||| nn.setWidth 16).toNat = x.val * 256 + nn.toNat := by
  have hnn : nn.toNat < 2 ^ 8 := nn.isLt
  rw [BitVec.toNat_or, putX_toNat, BitVec.toNat_setWidth_of_le (by decide), Nat.mul_comm,
    Nat.two_pow_add_eq_or_of_lt hnn x.val]

theorem putX_or_putY_or_rows_toNat (x y : Reg) (n : BitVec 4) :
    (putX x ||| putY y ||| n.setWidth 16).toNat = x.val * 256 + y.val * 16 + n.toNat := by
  have hn : n.toNat < 2 ^ 4 := n.isLt
  have hxy : x.val * 256 + y.val * 16 = 2 ^ 4 * (x.val * 16 + y.val) := by omega
  rw [BitVec.toNat_or, putX_or_putY_toNat, BitVec.toNat_setWidth_of_le (by decide), hxy,
    Nat.two_pow_add_eq_or_of_lt hn]

theorem reg_eq_ofNat_iff (x : Reg) (k : Nat) : x = Fin.ofNat 16 k ↔ x.val = k % 16 := Fin.ext_iff

theorem byte_eq_ofNat_iff (nn : Byte) (k : Nat) : nn = BitVec.ofNat 8 k ↔ nn.toNat = k % 256 := by
  rw [← BitVec.toNat_inj, BitVec.toNat_ofNat]

/-- The operands are the word's fields exactly when, put at their places, they add to the bits under
the mask what the mask leaves out of the word (R61, R71). -/
theorem Instr.operandsFrom_iff {i : Instr} (hwf : WellFormed i) (op : Word) :
    i.OperandsFrom op ↔ (op &&& i.maskBits).toNat + i.operandBits.toNat = op.toNat := by
  cases i
  case cls | ret =>
    simp only [Instr.OperandsFrom, Instr.operandBits, Instr.maskBits, mask_FFFF, BitVec.toNat_zero,
      Nat.add_zero]
  case jp nnn | call nnn | ldI nnn | jpV0 nnn =>
    have hnnn : nnn < 4096 := by simpa [WellFormed, Instr.wf] using hwf
    simp only [Instr.OperandsFrom, Instr.operandBits, Instr.maskBits, mask_F000,
      BitVec.toNat_setWidth, BitVec.toNat_ofNat]
    omega
  case seImm | sneImm | ldImm | addImm | rnd =>
    simp only [Instr.OperandsFrom, Instr.operandBits, Instr.maskBits, mask_F000,
      putX_or_imm_toNat, reg_eq_ofNat_iff, byte_eq_ofNat_iff]
    omega
  case drw x y n =>
    have hn : n < 16 := by simpa [WellFormed, Instr.wf] using hwf
    simp only [Instr.OperandsFrom, Instr.operandBits, Instr.maskBits, mask_F000,
      putX_or_putY_or_rows_toNat, reg_eq_ofNat_iff, BitVec.toNat_ofNat]
    omega
  case seReg | sneReg | ldReg | orReg | andReg | xorReg | addReg | sub | shr | subn | shl =>
    simp only [Instr.OperandsFrom, Instr.operandBits, Instr.maskBits, mask_F00F,
      putX_or_putY_toNat, reg_eq_ofNat_iff]
    omega
  case skp | sknp | ldVxDt | ldVxK | ldDtVx | ldStVx | addI | ldF | ldB | ldMemVx | ldVxMem =>
    simp only [Instr.OperandsFrom, Instr.operandBits, Instr.maskBits, mask_F0FF, putX_toNat,
      reg_eq_ofNat_iff]
    omega

/-- A well-formed instruction has one word, its encoding (R71). -/
theorem Instr.isWord_iff {i : Instr} (hwf : WellFormed i) (op : Word) :
    i.IsWord op ↔ encodeWord i = op := by
  have hmatch := Laws.EncodeMatches.match_in_mask i
  constructor
  · rintro ⟨hrow, hops⟩
    apply BitVec.eq_of_toNat_eq
    calc (encodeWord i).toNat = i.matchBits.toNat + i.operandBits.toNat := encodeWord_toNat i
      _ = (op &&& i.maskBits).toNat + i.operandBits.toNat := by rw [hrow, hmatch]
      _ = op.toNat := (Instr.operandsFrom_iff hwf op).mp hops
  · rintro rfl
    have hrow : encodeWord i &&& i.maskBits = i.matchBits := encodeWord_and_maskBits i
    refine ⟨hrow.trans hmatch.symm, (Instr.operandsFrom_iff hwf _).mpr ?_⟩
    rw [hrow, encodeWord_toNat]

/-- Settles O4: the two bytes are the halves of the encoding, which is a word of the instruction. -/
theorem decodeOfEncodeIsTheInstruction : Obligations.DecodeOfEncodeIsTheInstruction := by
  intro i rest hwf
  have hword : decodeWord (encodeWord i) = some i :=
    decodeWord_eq_some_iff.mpr ((Instr.isWord_iff hwf _).mpr rfl)
  calc decode (encode i ++ rest)
      = decode (highByte (encodeWord i) :: lowByte (encodeWord i) :: rest) := rfl
    _ = .ok i rest := by rw [decode_bytes, hword]

/-- Settles O5: the decoded word is a word of the instruction, and the encoding is the only one. -/
theorem encodeOfDecodeIsTheWord : Obligations.EncodeOfDecodeIsTheWord := by
  intro op i h
  have hwf := decodeWord_wf h
  exact ⟨hwf, (Instr.isWord_iff hwf op).mp (decodeWord_eq_some_iff.mp h)⟩

/-! #### The words without an instruction (R65) -/

section
variable (op : Word)

theorem decodeTop0_eq_none_iff :
    decodeTop0 op = none ↔ op.toNat ≠ 0x00E0 ∧ op.toNat ≠ 0x00EE := by
  unfold decodeTop0
  simp only [← BitVec.toNat_inj]
  split_ifs <;> simp_all

theorem decodeTop8_eq_none_iff :
    decodeTop8 op = none ↔ op.toNat % 16 = 0x8 ∨ op.toNat % 16 = 0x9 ∨ op.toNat % 16 = 0xA ∨
      op.toNat % 16 = 0xB ∨ op.toNat % 16 = 0xC ∨ op.toNat % 16 = 0xD ∨ op.toNat % 16 = 0xF := by
  unfold decodeTop8
  rw [opN_toNat]
  split
  case h_10 =>
    simp only [imp_false] at *
    simp only [true_iff]
    omega
  all_goals simp [*]

theorem decodeTopE_eq_none_iff :
    decodeTopE op = none ↔ op.toNat % 256 ≠ 0x9E ∧ op.toNat % 256 ≠ 0xA1 := by
  unfold decodeTopE
  rw [opNN_toNat]
  split <;> simp_all

theorem decodeTopF_eq_none_iff :
    decodeTopF op = none ↔ op.toNat % 256 ≠ 0x07 ∧ op.toNat % 256 ≠ 0x0A ∧ op.toNat % 256 ≠ 0x15 ∧
      op.toNat % 256 ≠ 0x18 ∧ op.toNat % 256 ≠ 0x1E ∧ op.toNat % 256 ≠ 0x29 ∧
      op.toNat % 256 ≠ 0x33 ∧ op.toNat % 256 ≠ 0x55 ∧ op.toNat % 256 ≠ 0x65 := by
  unfold decodeTopF
  rw [opNN_toNat]
  split <;> simp_all

end

/-- Settles O3: the primary opcodes but 0, 5, 8, 9, E and F decode every word; these six each leave
one family. -/
theorem unmatchedWordsAreTheListedFamilies : Obligations.UnmatchedWordsAreTheListedFamilies := by
  intro op top n nn
  have htop : top < 16 := by have := op.isLt; omega
  have hop : (opTop op).toNat = top := opTop_toNat op
  simp only [decodeWord, hop]
  clear_value top
  clear hop
  match top, htop with
  | 0, _ => simp [decodeTop0_eq_none_iff]
  | 5, _ | 9, _ => simp [opN_eq_zero, n]
  | 8, _ => simp [decodeTop8_eq_none_iff, n]
  | 14, _ => simp [decodeTopE_eq_none_iff, nn]
  | 15, _ => simp [decodeTopF_eq_none_iff, nn]
  | 1, _ | 2, _ | 3, _ | 4, _ | 6, _ | 7, _ | 10, _ | 11, _ | 12, _ | 13, _ => simp
  | _ + 16, hlt => omega

/-- Settles O1, by evaluation. -/
theorem specWordsDecodeToTheirInstructions : Obligations.SpecWordsDecodeToTheirInstructions := by
  unfold Obligations.SpecWordsDecodeToTheirInstructions
  decide

end Sys2Proof

/-! ### The step: fetch, dispatch, the unmatched opcode, and what is refused (R80 to R90)

What a CPU step does is said once for each way it can go: the word at `pc` decodes, it matches no
row, or the step ends in a fault or a refusal. -/

namespace Sys2Proof.Machine

/-! #### Nothing is refused but a foreign snapshot -/

/-- Every arm of the dispatch completes or faults (R84, R170). -/
theorem exec_ne_refused (i : Instr) (s : State) (r : Refusal) : exec i s ≠ .refused r := by
  intro h
  cases i
  case ret | call | ldVxK =>
    simp only [exec, execRet, execCall, execLdVxK] at h
    split at h <;> cases h
  all_goals cases h

/-- A CPU step is the fault of the fetch, an instruction, or the default advance: none is refused
(R80). -/
theorem cpuStep_ne_refused (s : State) (r : Refusal) : cpuStep s ≠ .refused r := by
  intro h
  unfold cpuStep at h
  split at h
  · cases h
  · split at h
    · exact exec_ne_refused _ s r h
    · cases h

/-- The one event that can be refused is the restore of a value that is no snapshot (R190). -/
theorem deliver_refused {e : Event} {s : State} {r : Refusal} (h : deliver e s = .refused r) :
    r = .foreignSnapshot ∧ ∃ a, e = .restore a ∧ a ∉ s.taken := by
  cases e with
  | cpu => exact absurd h (cpuStep_ne_refused s r)
  | load rom => simp only [deliver, loadRom] at h; split at h <;> cases h
  | restore a =>
    simp only [deliver, restoreArch] at h
    split at h
    · cases h
    · rename_i ha; cases h; exact ⟨rfl, a, rfl, ha⟩
  | reset | tick | setKey | snapshot => cases h

/-- Settles O11: a step is the delivery of the next event, and taking that event off its list leaves
the snapshots as they are. -/
theorem noInstructionIsRefused : Obligations.NoInstructionIsRefused :=
  ⟨exec_ne_refused, fun s _ h => deliver_refused (s := s.setSchedule s.schedule.tail) h⟩

/-! #### The instructions that complete and advance -/

/-- An instruction other than a return and a call completes in every state (R170). -/
theorem exec_completes {i : Instr} (hret : i ≠ .ret) (hcall : ∀ n, i ≠ .call n) (s : State) :
    ∃ t, exec i s = .next t := by
  cases h : exec i s with
  | next t => exact ⟨t, rfl⟩
  | fault f =>
    obtain ⟨rfl, -⟩ | ⟨⟨n, rfl⟩, -⟩ := exec_fault h
    · exact absurd rfl hret
    · exact absurd rfl (hcall n)
  | refused r => exact absurd h (exec_ne_refused i s r)

/-- Settles O12: the instruction completes, and the writers of `pc` that do not advance it by 2 are
all shut out. -/
theorem nonTransfersAdvanceByTwo : Obligations.NonTransfersAdvanceByTwo := by
  intro i s hi
  have hret : i ≠ .ret := by rintro rfl; exact hi
  have hcall : ∀ n, i ≠ .call n := by rintro n rfl; exact hi
  obtain ⟨t, ht⟩ := exec_completes hret hcall s
  obtain hadv | ⟨-, x, ⟨nn, rfl | rfl⟩ | ⟨y, rfl | rfl⟩ | rfl | rfl⟩ | ⟨-, x, rfl⟩ |
    ⟨n, rfl | rfl | rfl⟩ | rfl := exec_pc ht
  · exact ⟨t, ht, hadv⟩
  all_goals exact hi.elim

/-! #### A step on a word that decodes -/

/-- Where the next event is a `Step`, chosen or not, and the bytes at `pc` decode, the step runs the
decoded instruction on the state with that event taken off (R80, R84). -/
theorem step_of_decode {s : State} {i : Instr} {rest : List Byte} (hev : nextEvent s = .cpu)
    (hpc : s.pc.toNat < 0x0FFF) (h : decode s.fetchBytes = .ok i rest) :
    step s = exec i (s.setSchedule s.schedule.tail) :=
  (step_of_cpu hev).trans (cpuStep_of_decode (s := s.setSchedule s.schedule.tail) hpc h)

/-- The same where no event is chosen: no event is taken off (R80, R84). -/
theorem step_of_decode_of_nil {s : State} {i : Instr} {rest : List Byte} (hs : s.schedule = [])
    (hpc : s.pc.toNat < 0x0FFF) (h : decode s.fetchBytes = .ok i rest) : step s = exec i s := by
  rw [step_of_decode (by rw [nextEvent, hs]; rfl) hpc h, hs, List.tail_nil,
    State.setSchedule_of_nil hs]

/-- Settles O6: the two bytes named are the bytes of the fetch. -/
theorem stepRunsTheDecodedInstruction : Obligations.StepRunsTheDecodedInstruction := by
  intro s i hpc hd
  have hlt : s.pc.toNat < 0x0FFF := by omega
  have hbytes : decode s.fetchBytes = .ok i [] := hd
  refine ⟨fun hs => step_of_decode_of_nil hs hlt hbytes, fun es hs => ?_⟩
  rw [step_of_decode (by rw [nextEvent, hs]; rfl) hlt hbytes, hs, List.tail_cons]

/-! #### A word placed where the next step fetches it -/

/-- The table's 16 bits of a word are the word. -/
theorem tableWord_toNat (op : Word) : tableWord 16 op.toNat = op := by
  rw [tableWord, Nat.mod_eq_of_lt op.isLt, BitVec.ofNat_toNat, BitVec.setWidth_eq]

/-- The two bytes of an instruction are at different addresses, whatever `pc` is (R42). -/
theorem fetchAddr_zero_ne_one (pc : Word) : fetchAddr pc 0 ≠ fetchAddr pc 1 := by
  intro h
  have := congrArg BitVec.toNat h
  simp only [fetchAddr, BitVec.toNat_ofNat] at this
  omega

/-- The chosen events do not enter the fetch (R42). -/
@[simp] theorem State.setSchedule_fetchBytes (s : State) (l : List Event) :
    (s.setSchedule l).fetchBytes = s.fetchBytes := rfl

/-- A word stored at `pc` is fetched back, high byte first (R42, R71). -/
theorem State.placeWord_fetchBytes (s : State) (op : Word) :
    (s.placeWord op).fetchBytes = [highByte op, lowByte op] := by
  have hpc : (s.placeWord op).pc = s.pc := rfl
  simp only [State.fetchBytes, hpc]
  simp only [State.placeWord, State.write_read, fetchAddr_zero_ne_one, if_true, if_false]

/-- The word placed for the next step is the word it fetches (log entry 8). -/
theorem State.placeNext_fetchBytes (s : State) (op : Word) :
    (s.placeNext op).fetchBytes = [highByte op, lowByte op] := by
  rw [State.placeNext, State.setSchedule_fetchBytes, State.placeWord_fetchBytes]

/-- The next step fetches from within memory once a word is placed for it (R46; log entry 8). -/
theorem State.placeNext_pc_lt (s : State) (op : Word) : (s.placeNext op).pc.toNat < 0x0FFF := by
  have hpc : (s.placeNext op).pc = (if fetchable s.pc then s else s.setPc Config.resetPc).pc := rfl
  rw [hpc]
  split
  · rename_i hf
    have hf : s.pc.toNat + 1 < 4096 := of_decide_eq_true hf
    omega
  · simp [Config.resetPc]

/-- Settles O7: the placed word is what the next fetch reads, it is fetched from within memory, and
no chosen event comes before it. -/
theorem placedWordRunsNext : Obligations.PlacedWordRunsNext := by
  intro s op i hd
  rw [State.withFetchWord, tableWord_toNat]
  have hdec : decode (s.placeNext op).fetchBytes = .ok i [] := by
    rw [s.placeNext_fetchBytes, decode_bytes, hd]
  exact step_of_decode_of_nil rfl (s.placeNext_pc_lt op) hdec

/-! #### The bounds of the fetch -/

/-- A CPU step that faults did so at the fetch or in the instruction fetched (R80, R180). -/
theorem cpuStep_fault {s : State} {f : Fault} (h : cpuStep s = .fault f) :
    (s.fetch = none ∧ f = .outOfBoundsFetch s.pc) ∨
      ∃ op i, s.fetch = some op ∧ decodeWord op = some i ∧ exec i s = .fault f := by
  unfold cpuStep at h
  split at h
  · rename_i hf; cases h; exact .inl ⟨hf, rfl⟩
  · rename_i op hf
    split at h
    · rename_i i hd; exact .inr ⟨op, i, hf, hd, h⟩
    · cases h

/-- With `pc` at 0x0FFF or above the CPU step is the fault of the fetch (R81). -/
theorem cpuStep_of_pc_ge {s : State} (h : 0x0FFF ≤ s.pc.toNat) :
    cpuStep s = .fault (.outOfBoundsFetch s.pc) := by
  simp only [cpuStep, s.fetch_none.mpr h, raise]

/-- With `pc` below 0x0FFF the CPU step is no fault of the fetch: an instruction's faults are those
of the stack (R81, R170). -/
theorem cpuStep_ne_outOfBoundsFetch {s : State} (h : s.pc.toNat < 0x0FFF) (p : Word) :
    cpuStep s ≠ .fault (.outOfBoundsFetch p) := by
  intro hx
  obtain ⟨hf, -⟩ | ⟨op, i, -, -, he⟩ := cpuStep_fault hx
  · exact absurd (s.fetch_none.mp hf) (not_le.mpr h)
  · obtain ⟨-, -, hr⟩ | ⟨-, -, hr⟩ := exec_fault he <;> cases hr

/-- Settles O8: the bound is that of the fetch, which the chosen events do not enter. -/
theorem fetchFaultsExactlyOutOfBounds : Obligations.FetchFaultsExactlyOutOfBounds := by
  intro s hev
  rw [step_of_cpu hev]
  exact ⟨cpuStep_of_pc_ge (s := s.setSchedule s.schedule.tail), fun hpc =>
    ⟨cpuStep_ne_outOfBoundsFetch (s := s.setSchedule s.schedule.tail) hpc,
      _, State.fetch_some hpc, wordOfBytes_toNat _ _⟩⟩

/-! #### The unmatched opcode -/

/-- A CPU step on a word that matches no row is the default advance alone (R85). -/
theorem cpuStep_of_unmatched {s : State} {op : Word} (hf : s.fetch = some op)
    (hd : decodeWord op = none) : cpuStep s = .next s.advance := by
  simp only [cpuStep, hf, hd, skipUnmatched]

/-- The report of a CPU step names the word and its address where the word matches no row (R85). -/
theorem nextReport_of_unmatched {s : State} {op : Word} (hev : nextEvent s = .cpu)
    (hf : s.fetch = some op) (hd : decodeWord op = none) : nextReport s = some ⟨op, s.pc⟩ := by
  simp only [nextReport, hev, cpuReport, hf, hd]

/-- A word that matches a row carries no report (R85). -/
theorem nextReport_of_matched {s : State} {op : Word} {i : Instr} (hev : nextEvent s = .cpu)
    (hf : s.fetch = some op) (hd : decodeWord op = some i) : nextReport s = none := by
  simp only [nextReport, hev, cpuReport, hf, hd]

/-- Settles O9: the step is the default advance of the state with the event taken off, whose fetch
reads the same word. -/
theorem unmatchedOpcodeOnlyAdvancesAndReports :
    Obligations.UnmatchedOpcodeOnlyAdvancesAndReports := by
  intro s op hev hf
  refine ⟨fun hd => ?_, fun i => nextReport_of_matched hev hf⟩
  let u := s.setSchedule s.schedule.tail
  have hstep : step s = .next u.advance :=
    (step_of_cpu hev).trans (cpuStep_of_unmatched (s := u) hf hd)
  exact ⟨u.advance, hstep, .advance rfl, .setPc .., nextReport_of_unmatched hev hf hd⟩

end Sys2Proof.Machine

/-! ### The display (R26, R100, R101)

Drawing inverts the covered cells row by row; that no two rows of a sprite meet in a cell is why the
display before the draw decides every collision. -/

namespace Sys2Proof.Machine

/-! #### The cells a sprite covers -/

/-- A sprite covers the cells that its rows cover (R101). -/
theorem State.spriteCovers_iff (s : State) (a b : Byte) (n : Nat) (px : Fin 64) (py : Fin 32) :
    s.spriteCovers a b n px py ↔ ∃ r < n, rowCovers a b r (s.load r) 8 px py := by
  have hx : ∀ c, pixelX a c = px ↔ (a.toNat + c) % 64 = px.val := fun _ => Fin.ext_iff
  have hy : ∀ r, pixelY b r = py ↔ (b.toNat + r) % 32 = py.val := fun _ => Fin.ext_iff
  simp only [rowCovers, hx, hy]
  constructor
  · rintro ⟨c, r, hc, hr, hpx, hpy, hbit⟩
    exact ⟨r, hr, c, hc, hbit, hpx, hpy⟩
  · rintro ⟨r, hr, c, hc, hbit, hpx, hpy⟩
    exact ⟨c, r, hc, hr, hpx, hpy, hbit⟩

/-- A further row covers its own cells beside those of the rows before (R101). -/
theorem State.spriteCovers_succ (s : State) (a b : Byte) (n : Nat) (px : Fin 64) (py : Fin 32) :
    s.spriteCovers a b (n + 1) px py ↔
      s.spriteCovers a b n px py ∨ rowCovers a b n (s.load n) 8 px py := by
  simp only [State.spriteCovers_iff, Nat.exists_lt_succ_right]

/-- A sprite without rows covers no cell (R101). -/
theorem State.not_spriteCovers_zero (s : State) (a b : Byte) (px : Fin 64) (py : Fin 32) :
    ¬ s.spriteCovers a b 0 px py := by
  simp [State.spriteCovers_iff]

/-- A new row lies on no cell of the rows before it (R101: n <= 15 < 32). -/
theorem State.not_spriteCovers_of_rowCovers {s : State} {a b row : Byte} {n : Nat} {px : Fin 64}
    {py : Fin 32} (hn : n < 32) (h : rowCovers a b n row 8 px py) :
    ¬ s.spriteCovers a b n px py := by
  rw [State.spriteCovers_iff]
  rintro ⟨r, hr, -, -, -, -, hpy⟩
  obtain ⟨-, -, -, -, hpy'⟩ := h
  have : r = n := pixelY_inj b (by omega) hn (hpy.trans hpy'.symm)
  omega

/-- The covered cells depend on the index register and the memory alone (R45, R101). -/
theorem State.spriteCovers_congr {s t : State} (hi : t.i = s.i) (hmem : ∀ a, t.read a = s.read a)
    (a b : Byte) (n : Nat) (px : Fin 64) (py : Fin 32) :
    t.spriteCovers a b n px py ↔ s.spriteCovers a b n px py := by
  simp only [State.spriteCovers, hi, hmem]

/-! #### Drawing a sprite -/

/-- One more row drawn (R101). -/
theorem State.drawSprite_succ (s : State) (a b : Byte) (n : Nat) :
    s.drawSprite a b (n + 1) = (s.drawSprite a b n).drawCols a b n (s.load n) 8 := by
  simp [State.drawSprite, List.range_succ, Canvas.drawRow_eq]

open Classical in
/-- A cell after a draw: inverted where the sprite covers it (R101). -/
theorem State.drawSprite_cell (s : State) (a b : Byte) {n : Nat} (hn : n ≤ 32) (px : Fin 64)
    (py : Fin 32) :
    (s.drawSprite a b n).fb.cell px py =
      (s.fb.cell px py ^^ decide (s.spriteCovers a b n px py)) := by
  induction n with
  | zero => simp [State.drawSprite, State.not_spriteCovers_zero]
  | succ n ih =>
    have ih := ih (by omega)
    rw [State.drawSprite_succ, Canvas.drawCols_cell _ _ _ _ _ (by omega), ih]
    simp only [State.spriteCovers_succ]
    by_cases hrow : rowCovers a b n (s.load n) 8 px py
    · have hbefore : ¬ s.spriteCovers a b n px py :=
        State.not_spriteCovers_of_rowCovers (by omega) hrow
      simp [hrow, hbefore]
    · simp [hrow]

/-- The collision after a draw: a covered cell was set before it (R101). -/
theorem State.drawSprite_collision (s : State) (a b : Byte) {n : Nat} (hn : n ≤ 32) :
    (s.drawSprite a b n).collision = true ↔
      ∃ px py, s.spriteCovers a b n px py ∧ s.fb.cell px py = true := by
  induction n with
  | zero => simp [State.drawSprite, State.not_spriteCovers_zero]
  | succ n ih =>
    have hcell : ∀ px py, rowCovers a b n (s.load n) 8 px py →
        (s.drawSprite a b n).fb.cell px py = s.fb.cell px py := fun px py hrow => by
      have hbefore : ¬ s.spriteCovers a b n px py :=
        State.not_spriteCovers_of_rowCovers (by omega) hrow
      simp [s.drawSprite_cell a b (show n ≤ 32 by omega), hbefore]
    rw [State.drawSprite_succ, Canvas.drawCols_collision _ _ _ _ _ (by omega), ih (by omega)]
    simp only [State.spriteCovers_succ]
    constructor
    · rintro (⟨px, py, h, hc⟩ | ⟨px, py, h, hc⟩)
      · exact ⟨px, py, .inl h, hc⟩
      · exact ⟨px, py, .inr h, hcell px py h ▸ hc⟩
    · rintro ⟨px, py, h | h, hc⟩
      · exact .inl ⟨px, py, h, hc⟩
      · exact .inr ⟨px, py, h, (hcell px py h).trans hc⟩

/-- Replacing the framebuffer stays within a frame that names the display. -/
theorem OnlyChanges.setFb {ds : List Reg} {ps : List Part} {s t : State}
    (h : OnlyChanges ds ps s t) (hd : Part.display ∈ ps) (f : Frame) :
    OnlyChanges ds ps s (t.setFb f) :=
  { h with display := fun hn => absurd hd hn }

/-- Settles O24: the draw is the sprite's canvas, then VF, then the default advance. -/
theorem drawXorsTheSpriteAndReportsCollision :
    Obligations.DrawXorsTheSpriteAndReportsCollision := by
  intro x y n s hn
  have hcell := s.drawSprite_cell (s.reg x) (s.reg y) (show n ≤ 32 by omega)
  have hcollision := s.drawSprite_collision (s.reg x) (s.reg y) (show n ≤ 32 by omega)
  refine ⟨_, rfl, fun px py => ⟨fun h => ?_, fun h => ?_⟩, .of_flagByte hcollision ?_, .advance rfl,
    (OnlyChanges.setReg [.display] s vf _).setFb (List.mem_singleton_self _) _⟩
  · simp [hcell, h]
  · simp [hcell, h]
  · rw [State.advance_reg, State.setReg_reg_self]

/-- Settles O25: the first draw leaves the place and the sprite's bytes as they are, so both draws
cover the same cells; each of these is inverted twice, and set before the second draw exactly if it
was 0 before the first. -/
theorem drawingTwiceRestoresTheDisplay : Obligations.DrawingTwiceRestoresTheDisplay := by
  intro x y n s hn hx hy
  obtain ⟨t, ht, hst, -, -, hframe⟩ := drawXorsTheSpriteAndReportsCollision x y n s hn
  obtain ⟨u, hu, htu, hflag, -, -⟩ := drawXorsTheSpriteAndReportsCollision x y n t hn
  have hcovers : ∀ px py, t.spriteCovers (t.reg x) (t.reg y) n px py ↔
      s.spriteCovers (s.reg x) (s.reg y) n px py := by
    rw [hframe.regs x (by simpa using hx), hframe.regs y (by simpa using hy)]
    exact State.spriteCovers_congr (hframe.index (by decide)) (hframe.memory (by decide)) _ _ _
  simp only [hcovers] at htu hflag
  refine ⟨t, u, ht, hu, fun px py => ?_, ?_⟩
  · by_cases hc : s.spriteCovers (s.reg x) (s.reg y) n px py
    · rw [(htu px py).1 hc, (hst px py).1 hc, Bool.not_not]
    · rw [(htu px py).2 hc, (hst px py).2 hc]
  · have hset : ∀ px py, s.spriteCovers (s.reg x) (s.reg y) n px py →
        (t.fb.cell px py = true ↔ s.fb.cell px py = false) := fun px py hc => by
      rw [(hst px py).1 hc, Bool.not_eq_true']
    simpa only [and_congr_right (hset _ _)] using hflag

/-! #### A cleared display -/

/-- Settles O23: the framebuffer is replaced by the blank one, and `pc` advances. -/
theorem clearBlanksTheDisplay : Obligations.ClearBlanksTheDisplay := fun s =>
  ⟨_, rfl, Frame.cell_blank, .advance rfl,
    (OnlyChanges.setPc [] [.display] s s.npc).setFb (List.mem_singleton_self _) _⟩

/-- An outcome passed on completes where both parts complete. -/
theorem andThen_next {o : Out} {f : State → Out} {t : State} :
    andThen o f = .next t ↔ ∃ s, o = .next s ∧ f s = .next t := by
  cases o <;> simp [andThen]

/-- What each instruction of a list keeps holds at the end of the list where it holds at the start. -/
theorem execAll_keeps {P : State → Prop} {is : List Instr}
    (hkeep : ∀ i ∈ is, ∀ s t, exec i s = .next t → P s → P t) {s t : State}
    (h : execAll is s = .next t) (hs : P s) : P t := by
  induction is generalizing s with
  | nil => cases h; exact hs
  | cons i is ih =>
    obtain ⟨u, hu, ht⟩ := andThen_next.mp h
    obtain ⟨hi, his⟩ := List.forall_mem_cons.mp hkeep
    exact ih his ht (hi s u hu hs)

/-- An instruction that does not draw keeps a clear display clear: the one other writer of the
display is 00E0 (R26). -/
theorem exec_displayClear {i : Instr} {s t : State} (hi : isDraw i = false)
    (h : exec i s = .next t) (hs : s.displayClear) : t.displayClear := by
  obtain hfb | rfl | ⟨x, y, n, rfl⟩ := exec_fb h
  · rw [State.displayClear, hfb]; exact hs
  · cases h; exact Frame.cell_blank
  · cases hi

/-- Settles O26: 00E0 clears the display, and every instruction after it keeps it clear. -/
theorem displayStaysClearWithoutDraw : Obligations.DisplayStaysClearWithoutDraw := by
  intro is s t his h
  obtain ⟨u, hu, hrest⟩ := andThen_next.mp h
  have hclear : u.displayClear := by cases hu; exact Frame.cell_blank
  exact execAll_keeps (fun i hi _ _ => exec_displayClear (his i hi)) hrest hclear

end Sys2Proof.Machine

/-! ### Control transfer (R110 to R113)

What 00EE and 2NNN do is said once for each way they go: an entry to pop or none, room for one more
entry or none. Each obligation reads its clauses off the state they leave. -/

namespace Sys2Proof.Machine

/-! #### Targets, and the frame of a replaced stack -/

/-- An address of 12 bits is its own 16-bit value (R63). -/
theorem zextAddr_toNat {n : Nat} (h : n < 4096) : (zextAddr n).toNat = n :=
  Nat.mod_eq_of_lt (by omega)

/-- The sum of BNNN does not wrap: 0x0FFF + 0xFF is below 65536 (R113, decision D23). -/
theorem jumpOffset_toNat (b : Byte) {n : Nat} (h : n < 4096) :
    (jumpOffset b n).toNat = b.toNat + n :=
  Nat.mod_eq_of_lt (by omega)

/-- Replacing the stack stays within a frame that names it. -/
theorem OnlyChanges.setStack {ds : List Reg} {ps : List Part} {s t : State}
    (h : OnlyChanges ds ps s t) (hs : Part.stack ∈ ps) (l : List Word) :
    OnlyChanges ds ps s (t.setStack l) :=
  { h with stack := fun hn => absurd hs hn }

/-! #### Jumps -/

/-- Settles O28: the target is the 16-bit value of `nnn`, and writing to `pc` the value it has changes
nothing. -/
theorem jumpSetsTheCounter : Obligations.JumpSetsTheCounter := by
  intro nnn s hn
  have htarget : (zextAddr nnn).toNat = nnn := zextAddr_toNat hn
  refine ⟨s.setPc (zextAddr nnn), rfl, htarget, .setPc .., fun hpc => ?_⟩
  have hown : zextAddr nnn = s.pc := BitVec.eq_of_toNat_eq (htarget.trans hpc.symm)
  rw [hown]
  rfl

/-- Settles O30: `pc` alone is written, with a sum that does not wrap. -/
theorem jumpOffsetAddsV0 : Obligations.JumpOffsetAddsV0 := fun nnn s hn =>
  ⟨s.setPc (jumpOffset (s.reg v0) nnn), rfl, jumpOffset_toNat (s.reg v0) hn, .setPc ..⟩

/-! #### Return -/

/-- 00EE on a stack that ends in `w` takes `w` off the stack and into `pc` (R110). -/
theorem exec_ret_of_append {s : State} {l : List Word} {w : Word} (h : s.stack = l ++ [w]) :
    exec .ret s = .next ((s.setStack l).setPc w) := by
  have hdrop : s.drop = s.setStack l := by rw [State.drop, h, List.dropLast_concat]
  simp only [exec, execRet, State.top_of_append h, hdrop]

/-- 00EE on an empty stack (R172). -/
theorem exec_ret_of_nil {s : State} (h : s.stack = []) :
    exec .ret s = .fault (.stackUnderflow s.pc) := by
  simp only [exec, execRet, s.top_none.mpr h, raise]

/-- Settles O27: one clause for each form of the stack. -/
theorem returnPopsOrUnderflows : Obligations.ReturnPopsOrUnderflows := fun s =>
  ⟨fun l w h => ⟨_, exec_ret_of_append h, rfl, rfl,
    (OnlyChanges.setPc [] [.stack] s w).setStack (List.mem_singleton_self _) l⟩, exec_ret_of_nil⟩

/-! #### Call -/

/-- A stack is not full exactly if it has fewer entries than STACK_DEPTH, where there is one (R24). -/
theorem State.not_full_iff_lt (s : State) :
    s.full = false ↔ ∀ d, s.params.depth = some d → s.stack.length < d := by
  simp [← Bool.not_eq_true, State.full_iff]

/-- 2NNN with room on the stack pushes the address of the next instruction (R112). -/
theorem exec_call_of_room {s : State} (h : ∀ d, s.params.depth = some d → s.stack.length < d)
    (n : Nat) : exec (.call n) s = .next ((s.push s.npc).setPc (zextAddr n)) := by
  simp only [exec, execCall, s.not_full_iff_lt.mpr h, Bool.false_eq_true, if_false]

/-- 2NNN on a full stack (R173). -/
theorem exec_call_of_full {s : State} (h : s.full = true) (n : Nat) :
    exec (.call n) s = .fault (.stackOverflow s.pc) := by
  simp only [exec, execCall, h, if_true, raise]

/-- Settles O29: the call completes where there is room, and a stack of exactly STACK_DEPTH entries is
full. -/
theorem callPushesOrOverflows : Obligations.CallPushesOrOverflows := by
  intro nnn s hn
  refine ⟨fun hroom => ?_, fun hdepth => ?_⟩
  · exact ⟨_, s.npc, exec_call_of_room hroom nnn, zextAddr_toNat hn, rfl, s.advance_pc_toNat,
      (OnlyChanges.setPc [] [.stack] s (zextAddr nnn)).setStack (List.mem_singleton_self _) _⟩
  · exact exec_call_of_full (s.full_iff.mpr ⟨_, hdepth, le_rfl⟩) nnn

/-- A return after a call with room on the stack leaves the state that the default advance of the call
would leave: the entry popped is the one pushed (R110, R112). -/
theorem exec_ret_of_call (s : State) (n : Nat) :
    exec .ret ((s.push s.npc).setPc (zextAddr n)) = .next s.advance :=
  exec_ret_of_append (s := (s.push s.npc).setPc (zextAddr n)) (l := s.stack) (w := s.npc) rfl

/-- Settles O31: the call completes, and after the return only `pc` differs, by the default advance. -/
theorem returnUndoesCall : Obligations.ReturnUndoesCall := fun nnn s hroom =>
  ⟨_, s.advance, exec_call_of_room hroom nnn, exec_ret_of_call s nnn, rfl, .advance rfl,
    .setPc [] [] s s.npc⟩

end Sys2Proof.Machine

/-! ### Conditional skips on registers (R120 to R123) -/

namespace Sys2Proof.Machine

/-- An instruction that means a skip on the condition `c` completes within the empty frame, and
advances `pc` by 4 under what implies `c`, by 2 under what excludes it. -/
theorem skip_spec {i : Instr} {s : State} {c : Bool} {p q : Prop}
    (hexec : exec i s = .next (s.skipIf c)) (htaken : p → c = true) (hnot : q → c = false) :
    ∃ t, exec i s = .next t ∧ OnlyChanges [] [] s t ∧ (p → Advanced 4 s t) ∧ (q → Advanced 2 s t) :=
  ⟨s.skipIf c, hexec, .skipIf .., fun hp => .skip_taken (htaken hp),
    fun hq => .skip_not_taken (hnot hq)⟩

/-- Settles O32: the condition of 3XNN is `V[x] == nn`, that of 4XNN is its negation. -/
theorem immediateSkipsTestTheRegister : Obligations.ImmediateSkipsTestTheRegister := fun x nn s =>
  ⟨skip_spec (i := .seImm x nn) (s := s) rfl beq_iff_eq.mpr beq_eq_false_iff_ne.mpr,
    skip_spec (i := .sneImm x nn) (s := s) rfl bne_iff_ne.mpr bne_eq_false_iff_eq.mpr⟩

/-- Settles O33: the condition of 5XY0 is `V[x] == V[y]`, that of 9XY0 is its negation. -/
theorem registerSkipsCompareRegisters : Obligations.RegisterSkipsCompareRegisters := fun x y s =>
  ⟨skip_spec (i := .seReg x y) (s := s) rfl beq_iff_eq.mpr beq_eq_false_iff_ne.mpr,
    skip_spec (i := .sneReg x y) (s := s) rfl bne_iff_ne.mpr bne_eq_false_iff_eq.mpr⟩

end Sys2Proof.Machine

/-! ### Register load and arithmetic (R130 to R141)

A meaning writes one register; or the sum and then the carry (R136); or a flag and then the result,
which stands where the destination is VF (R137 to R140, R87). What each form leaves is said once, and
an obligation adds what its result and its flag are as numbers. -/

namespace Sys2Proof.Machine

/-! #### Results and flags as numbers -/

/-- The difference of 8XY5 and 8XY7 is that of the integers, modulo 256 (R137, R139). -/
theorem subBytes_toNat_int (a b : Byte) :
    ((subBytes a b).toNat : Int) = (a.toNat - b.toNat : Int) % 256 := by
  rw [subBytes_toNat]
  omega

/-- The carry of 8XY4 (R136). -/
theorem carryOut_iff (a b : Byte) : carryOut a b = true ↔ a.toNat + b.toNat > 255 :=
  decide_eq_true_iff

/-- The flag of 8XY5 and 8XY7 (R137, R139). -/
theorem noBorrow_iff (a b : Byte) : noBorrow a b = true ↔ b.toNat ≤ a.toNat := decide_eq_true_iff

/-- The flag of 8XY6 is the lowest bit (R138). -/
theorem shrOut_iff (a : Byte) : shrOut a = true ↔ a.getLsbD 0 = true := by
  rw [shrOut, BitVec.getLsbD, Nat.testBit_zero]

/-- The flag of 8XYE is the highest bit: a byte shifted right by 7 is 0 or 1 (R140). -/
theorem shlOut_iff (a : Byte) : shlOut a = true ↔ a.getLsbD 7 = true := by
  have hbit : a.toNat / 128 % 2 = a.toNat / 128 := Nat.mod_eq_of_lt (by omega)
  rw [shlOut, BitVec.getLsbD, Nat.testBit_eq_decide_div_mod_eq, show 2 ^ 7 = 128 from rfl, hbit]

/-! #### What the forms leave -/

/-- A flag and then the result: the result stands for every destination, and the flag unless the
destination is VF (R87). -/
theorem flagThenResult_spec {i : Instr} {s : State} {x : Reg} {b : Byte} {c : Bool} {p : Prop}
    (hexec : exec i s = .next ((s.setReg vf (flagByte c)).setReg x b).advance)
    (hflag : c = true ↔ p) :
    ∃ t, exec i s = .next t ∧ t.reg x = b ∧ (x ≠ vf → FlagIs p t) ∧ Advanced 2 s t ∧
      OnlyChanges [x, vf] [] s t := by
  refine ⟨_, hexec, State.setReg_reg_self .., fun hx => .of_flagByte hflag ?_, .advance rfl,
    .setReg₂ [] s (by simp) (by simp) _ _⟩
  calc ((s.setReg vf (flagByte c)).setReg x b).advance.reg vf
      = (s.setReg vf (flagByte c)).reg vf := State.setReg_reg_ne _ b hx
    _ = flagByte c := State.setReg_reg_self ..

/-- Writing to a register the value it has changes nothing. -/
theorem State.setReg_own (s : State) (x : Reg) : s.setReg x (s.reg x) = s := by
  simp [State.setReg, State.reg]

/-- Replacing the count of drawn bytes stays within a frame that names it. -/
theorem OnlyChanges.setDraws {ds : List Reg} {ps : List Part} {s t : State}
    (h : OnlyChanges ds ps s t) (hd : Part.draws ∈ ps) (n : Nat) :
    OnlyChanges ds ps s (t.setDraws n) :=
  { h with draws := fun hn => absurd hd hn }

/-! #### Arithmetic with a flag -/

/-- Settles O18: the carry is written last, so VF holds it for every `x`, and a sum written to another
register stays. -/
theorem addWritesSumThenCarry : Obligations.AddWritesSumThenCarry := by
  intro x y s
  refine ⟨_, rfl, fun hx => ?_, .of_flagByte (carryOut_iff ..) (State.setReg_reg_self ..),
    .advance rfl, .setReg₂ [] s (by simp) (by simp) _ _⟩
  rw [State.advance_reg, State.setReg_reg_ne _ _ hx.symm, State.setReg_reg_self, addBytes_toNat]

/-- Settles O19: the flag and then the difference. -/
theorem subWritesNoBorrowThenDifference : Obligations.SubWritesNoBorrowThenDifference := by
  intro x y s
  obtain ⟨t, ht, hx, hrest⟩ := flagThenResult_spec (i := .sub x y) (s := s) rfl (noBorrow_iff _ _)
  exact ⟨t, ht, hx ▸ subBytes_toNat_int .., hrest⟩

/-- Settles O20: as O19 with the operands exchanged. -/
theorem reverseSubWritesNoBorrowThenDifference :
    Obligations.ReverseSubWritesNoBorrowThenDifference := by
  intro x y s
  obtain ⟨t, ht, hx, hrest⟩ := flagThenResult_spec (i := .subn x y) (s := s) rfl (noBorrow_iff _ _)
  exact ⟨t, ht, hx ▸ subBytes_toNat_int .., hrest⟩

/-- Settles O21: the bit shifted out and then the shifted byte, in each direction. -/
theorem shiftsMoveOneBitIntoFlag : Obligations.ShiftsMoveOneBitIntoFlag := by
  intro x y s
  constructor
  · obtain ⟨t, ht, hx, hrest⟩ := flagThenResult_spec (i := .shr x y) (s := s) rfl (shrOut_iff _)
    exact ⟨t, ht, hx ▸ shrByte_toNat _, hrest⟩
  · obtain ⟨t, ht, hx, hrest⟩ := flagThenResult_spec (i := .shl x y) (s := s) rfl (shlOut_iff _)
    exact ⟨t, ht, by rw [hx, shlByte_toNat, Nat.mul_comm], hrest⟩

/-! #### One register written -/

/-- Settles O14: the immediate is the byte written. -/
theorem loadImmediateWritesTheByte : Obligations.LoadImmediateWritesTheByte := fun x nn s =>
  ⟨_, rfl, s.setReg_reg_self x nn, .advance rfl, .setReg [] s x nn⟩

/-- Settles O15: the one byte written is the sum modulo 256. -/
theorem addImmediateWrapsWithoutFlag : Obligations.AddImmediateWrapsWithoutFlag := by
  intro x nn s
  refine ⟨_, rfl, ?_, .advance rfl, .setReg [] s x _⟩
  rw [State.advance_reg, State.setReg_reg_self, addBytes_toNat]

/-- Settles O16: for `x == y` the byte written is the one that stands there. -/
theorem copyRegisterWritesTheSource : Obligations.CopyRegisterWritesTheSource := by
  intro x y s
  refine ⟨_, rfl, s.setReg_reg_self x _, .advance rfl, .setReg [] s x _, ?_⟩
  rintro rfl
  rw [State.setReg_own]
  exact .setPc [] [] s s.npc

/-- Settles O17: a bit of the byte written is the operation on the two bits. -/
theorem logicInstructionsActBitwise : Obligations.LogicInstructionsActBitwise := by
  intro x y s
  refine ⟨⟨_, rfl, .advance rfl, .setReg [] s x _, fun k _ => ?_⟩,
    ⟨_, rfl, .advance rfl, .setReg [] s x _, fun k _ => ?_⟩,
    ⟨_, rfl, .advance rfl, .setReg [] s x _, fun k _ => ?_⟩⟩
  · rw [State.advance_reg, State.setReg_reg_self, BitVec.getLsbD_or]
  · rw [State.advance_reg, State.setReg_reg_self, BitVec.getLsbD_and]
  · rw [State.advance_reg, State.setReg_reg_self, BitVec.getLsbD_xor]

/-! #### The random byte -/

/-- CXNN with the byte given writes the masked byte and nothing else (R141). -/
theorem rndWith_spec (r : Byte) (x : Reg) (nn : Byte) (s : State) (ps : List Part) :
    (rndWith r x nn s).reg x = r &&& nn ∧ Advanced 2 s (rndWith r x nn s) ∧
      OnlyChanges [x] ps s (rndWith r x nn s) :=
  ⟨s.setReg_reg_self x _, .advance rfl, .setReg ps s x _⟩

/-- Settles O22: the draw is the meaning for a given byte, and then the count. -/
theorem randomByteIsMasked : Obligations.RandomByteIsMasked := by
  intro x nn s
  refine ⟨?_, fun r => rndWith_spec r x nn s []⟩
  obtain ⟨hx, hpc, hframe⟩ := rndWith_spec (Config.randByte s.draws) x nn s [.draws]
  refine ⟨_, rfl, hx, fun k hk => ?_, hpc, hframe.setDraws (List.mem_singleton_self _) _, rfl⟩
  rw [State.setDraws_reg, hx, BitVec.getLsbD_and, hk, Bool.and_false]

end Sys2Proof.Machine

/-! ### The index register and memory (R150 to R155)

ANNN, FX1E and FX29 write `I`, and their obligations differ in the number written. FX33, FX55 and
FX65 move bytes through the effective addresses, which are distinct within one instruction (R47), so
that no byte stored is overwritten by a later one. -/

namespace Sys2Proof.Machine

/-! #### Writing the index register -/

/-- FX1E leaves the sum modulo 4096, which fits in 16 bits (R151). -/
theorem indexSum_toNat (w : Word) (b : Byte) :
    (indexSum w b).toNat = (w.toNat + b.toNat) % 4096 :=
  Nat.mod_eq_of_lt (by omega)

/-- Five times a byte fits in 16 bits (R152). -/
theorem glyphAddr_toNat (b : Byte) : (glyphAddr b).toNat = b.toNat * 5 :=
  Nat.mod_eq_of_lt (by omega)

/-- An instruction that means a write to `I` completes with that number in `I`, and changes nothing
else but the default advance. -/
theorem setI_spec {i : Instr} {s : State} {w : Word} {n : Nat}
    (hexec : exec i s = .next (s.setI w).advance) (hw : w.toNat = n) :
    ∃ t, exec i s = .next t ∧ t.i.toNat = n ∧ Advanced 2 s t ∧ OnlyChanges [] [.index] s t :=
  ⟨(s.setI w).advance, hexec, hw, .advance rfl, .setI s w⟩

/-- Settles O35: a 12-bit address is its own 16-bit value. -/
theorem loadIndexWritesTheAddress : Obligations.LoadIndexWritesTheAddress := fun nnn _ hn =>
  setI_spec (i := .ldI nnn) rfl (zextAddr_toNat hn)

/-- Settles O36: the sum is reduced before it is written. -/
theorem addToIndexWrapsAt4096 : Obligations.AddToIndexWrapsAt4096 := fun x _ =>
  setI_spec (i := .addI x) rfl (indexSum_toNat ..)

/-- Settles O37: the product needs no reduction. -/
theorem glyphAddressIsFiveTimesTheDigit : Obligations.GlyphAddressIsFiveTimesTheDigit := fun x _ =>
  setI_spec (i := .ldF x) rfl (glyphAddr_toNat _)

/-! #### Decimal digits -/

theorem hundreds_toNat (b : Byte) : (hundreds b).toNat = b.toNat / 100 :=
  Nat.mod_eq_of_lt (by omega)

theorem tens_toNat (b : Byte) : (tens b).toNat = b.toNat % 100 / 10 :=
  Nat.mod_eq_of_lt (by omega)

theorem ones_toNat (b : Byte) : (ones b).toNat = b.toNat % 10 :=
  Nat.mod_eq_of_lt (by omega)

/-- What three stores from `I` on do to a byte of memory (R45, R153). -/
theorem State.store₃_read (s : State) (b₀ b₁ b₂ : Byte) (a : Addr) :
    (((s.store 0 b₀).store 1 b₁).store 2 b₂).read a =
      if a = s.ea 2 then b₂ else if a = s.ea 1 then b₁ else if a = s.ea 0 then b₀
      else s.read a := by
  simp only [State.store_read, State.store_ea]

/-- Settles O38: the three digits are at distinct addresses, so each is read back. -/
theorem decimalDigitsAreStored : Obligations.DecimalDigitsAreStored := by
  intro x s
  have h01 : s.ea 0 ≠ s.ea 1 := mt (s.ea_inj (by decide) (by decide)) (by decide)
  have h02 : s.ea 0 ≠ s.ea 2 := mt (s.ea_inj (by decide) (by decide)) (by decide)
  have h12 : s.ea 1 ≠ s.ea 2 := mt (s.ea_inj (by decide) (by decide)) (by decide)
  refine ⟨_, rfl, ?_, ?_, ?_, s.ea_toNat, fun a h0 h1 h2 => ?_, .advance rfl, .setMem s _⟩
  all_goals rw [State.advance_read, State.store₃_read]
  · rw [if_neg h02, if_neg h01, if_pos rfl, hundreds_toNat]
  · rw [if_neg h12, if_pos rfl, tens_toNat]
  · rw [if_pos rfl, ones_toNat]
  · rw [if_neg h2, if_neg h1, if_neg h0]

/-! #### Block transfers -/

/-- The loop index of FX55 and FX65 names the register of the same number (R154, R155). -/
theorem loopReg_val (k : Reg) : loopReg k.val = k := Fin.ofNat_val_eq_self k

/-- The block store, then the default advance, changes memory alone (R154). -/
theorem OnlyChanges.storeRegs (s : State) (n : Nat) :
    OnlyChanges [] [.memory] s (s.storeRegs n).advance := by
  rw [State.storeRegs_eq]
  exact .setMem ..

/-- Settles O39: the offsets below x + 1 are the numbers of the registers up to `x`. -/
theorem blockStoreWritesRegistersToMemory : Obligations.BlockStoreWritesRegistersToMemory := by
  intro x s
  refine ⟨_, rfl, fun k hk => ?_, s.ea_toNat, fun a ha => ?_, .advance (s.storeRegs_pc _),
    .storeRegs s _⟩
  · calc (s.storeRegs (x.val + 1)).read (s.ea k.val)
        = s.reg (loopReg k.val) := s.storeRegs_read (by omega) (Nat.lt_succ_of_le hk)
      _ = s.reg k := by rw [loopReg_val]
  · exact s.storeRegs_read_ne _ fun k hk => ha ⟨k, by omega⟩ (Nat.le_of_lt_succ hk)

/-- The block load leaves the program counter as it is. -/
@[simp] theorem State.loadRegs_pc (s : State) (n : Nat) : (s.loadRegs n).pc = s.pc := by
  rw [State.loadRegs_eq]

/-- The block load up to `x`, then the default advance, changes the registers up to `x` alone
(R155). -/
theorem OnlyChanges.loadRegs (ps : List Part) (s : State) (x : Reg) :
    OnlyChanges ((List.finRange 16).filter (· ≤ x)) ps s (s.loadRegs (x.val + 1)).advance := by
  exact .of_regs (fun _ hr => exec_reg (i := .ldVxMem x) rfl hr) (by rw [State.loadRegs_eq]; rfl)

/-- Settles O40: a register up to `x` is one of those loaded, from its own effective address. -/
theorem blockLoadReadsRegistersFromMemory : Obligations.BlockLoadReadsRegistersFromMemory := by
  intro x s
  refine ⟨_, rfl, fun k hk => ?_, .advance (s.loadRegs_pc _), .loadRegs [] s x⟩
  calc (s.loadRegs (x.val + 1)).reg k
      = s.load k.val := (s.loadRegs_reg x.isLt k).trans (if_pos (Nat.lt_succ_of_le hk))
    _ = s.read (BitVec.ofNat 12 (s.i.toNat + k.val)) := rfl

end Sys2Proof.Machine

/-! ### Keys and timers (R160 to R165)

EX9E and EXA1 are skips on one key. FX0A is an equation for each way it goes: no key pressed, or a
least one. FX07 writes a register, FX15 and FX18 a timer. -/

namespace Sys2Proof.Machine

/-! #### Skips on a key -/

/-- The key EX9E and EXA1 test is the one of code `V[x]` modulo 8 (R160). -/
theorem testedKey_eq {b : Byte} {k : Key} (h : k.val = b.toNat % 8) : testedKey b = k := by
  rw [testedKey, ← h]
  exact Fin.ofNat_val_eq_self k

/-- Settles O34: the condition of EX9E is that the key of code `V[x]` modulo 8 is pressed, that of
EXA1 is its negation. -/
theorem keySkipsTestTheMaskedKey : Obligations.KeySkipsTestTheMaskedKey := by
  intro x k s hk
  obtain rfl := testedKey_eq hk
  exact ⟨skip_spec (i := .skp x) rfl id id,
    skip_spec (i := .sknp x) rfl (Bool.not_eq_true' _).mpr (Bool.not_eq_false' ..).mpr⟩

/-! #### The wait for a key -/

/-- The scan finds a key exactly if it is the least one pressed (R162). -/
theorem State.lowestKey_eq_some_iff (s : State) (k : Key) :
    s.lowestKey = some k ↔ s.pressed k = true ∧ ∀ j < k, s.pressed j = false := by
  refine ⟨State.lowestKey_some, fun ⟨hk, hlow⟩ => ?_⟩
  cases hfound : s.lowestKey with
  | none => simp [s.lowestKey_none.mp hfound k] at hk
  | some j =>
    obtain ⟨hj, hlow'⟩ := State.lowestKey_some hfound
    have hjk : ¬ j < k := fun hlt => by simp [hlow j hlt] at hj
    have hkj : ¬ k < j := fun hlt => by simp [hlow' k hlt] at hk
    rw [le_antisymm (not_lt.mp hkj) (not_lt.mp hjk)]

/-- With no key found, FX0A takes the default advance back (R162). -/
theorem exec_ldVxK_of_none {s : State} (h : s.lowestKey = none) (x : Reg) :
    exec (.ldVxK x) s = .next s := by
  have hpc : s.npc - 2#16 = s.pc := BitVec.add_sub_cancel ..
  simp only [exec, execLdVxK, h, hpc]
  rfl

/-- With a key found, FX0A writes its code and goes on (R162). -/
theorem exec_ldVxK_of_some {s : State} {k : Key} (h : s.lowestKey = some k) (x : Reg) :
    exec (.ldVxK x) s = .next (s.setReg x (BitVec.ofNat 8 k.val)).advance := by
  simp only [exec, execLdVxK, h]

/-- Settles O42: the scan finds no key, or the least one, whose code fits in a byte. -/
theorem keyWaitRewindsOrReadsTheLowestKey : Obligations.KeyWaitRewindsOrReadsTheLowestKey := by
  intro x s
  refine ⟨fun hnone => exec_ldVxK_of_none (s.lowestKey_none.mpr hnone) x, fun k hk hlow => ?_⟩
  have hfound : s.lowestKey = some k := (s.lowestKey_eq_some_iff k).mpr ⟨hk, hlow⟩
  refine ⟨_, exec_ldVxK_of_some hfound x, ?_, .advance rfl, .setReg [] s x _⟩
  rw [State.advance_reg, State.setReg_reg_self, BitVec.toNat_ofNat, Nat.mod_eq_of_lt (by omega)]

/-! #### The timers -/

/-- Writing the delay timer stays within a frame that names it. -/
theorem OnlyChanges.setDt {ds : List Reg} {ps : List Part} {s t : State}
    (h : OnlyChanges ds ps s t) (hd : Part.delay ∈ ps) (b : Byte) :
    OnlyChanges ds ps s (t.setDt b) :=
  { h with delay := fun hn => absurd hd hn }

/-- Writing the sound timer stays within a frame that names it. -/
theorem OnlyChanges.setSt {ds : List Reg} {ps : List Part} {s t : State}
    (h : OnlyChanges ds ps s t) (hs : Part.sound ∈ ps) (b : Byte) :
    OnlyChanges ds ps s (t.setSt b) :=
  { h with sound := fun hn => absurd hs hn }

/-- The tone sounds exactly while the sound timer is not 0 (R165, R185). -/
theorem State.tone_iff (s : State) : s.tone = true ↔ s.st ≠ 0#8 := by
  rw [State.tone, decide_eq_true_iff, Nat.pos_iff_ne_zero]
  exact not_congr (BitVec.toNat_inj (y := 0#8))

/-- Settles O43: each writes its one register or timer, and the default advance alone is framed by
any list. -/
theorem timerInstructionsMoveTheTimers : Obligations.TimerInstructionsMoveTheTimers := by
  intro x s
  refine ⟨⟨_, rfl, s.setReg_reg_self x _, .advance rfl, .setReg [] s x _⟩,
    ⟨_, rfl, rfl, .advance rfl, ?_⟩, ⟨_, rfl, rfl, .advance rfl, ?_, State.tone_iff _⟩⟩
  · exact (OnlyChanges.setPc [] [.delay] s s.npc).setDt (List.mem_singleton_self _) (s.reg x)
  · exact (OnlyChanges.setPc [] [.sound] s s.npc).setSt (List.mem_singleton_self _) (s.reg x)

end Sys2Proof.Machine

/-! ### Faults (R170 to R180)

A CPU step faults at the fetch, at a return on an empty stack, or at a call on a full one; the
condition speaks of `pc`, the stack, memory and the parameters alone. -/

namespace Sys2Proof.Machine

/-! #### Where a fault is raised -/

/-- The word of a return is 0x00EE (R64). -/
theorem eq_of_decodeWord_ret {op : Word} (h : decodeWord op = some .ret) : op = 0x00EE#16 :=
  and_FFFF_eq_iff.mp (isWord_of_decodeWord h).agrees

/-- The primary opcode of a call is 2 (R64). -/
theorem top_of_decodeWord_call {op : Word} {n : Nat} (h : decodeWord op = some (.call n)) :
    op.toNat / 4096 = 2 := by
  have htop := and_F000_eq_iff.mp (isWord_of_decodeWord h).agrees
  simpa [Instr.matchBits] using htop

/-- The events that can fault are the CPU step, and the load of a ROM that does not fit (R170). -/
theorem deliver_fault {e : Event} {s : State} {f : Fault} (h : deliver e s = .fault f) :
    (e = .cpu ∧ cpuStep s = .fault f) ∨
      ∃ rom, e = .load rom ∧ romFits rom.length = false ∧ f = .romTooLarge rom.length := by
  cases e with
  | cpu => exact .inl ⟨rfl, h⟩
  | load rom =>
    simp only [deliver, loadRom] at h
    split at h
    · cases h
    · rename_i hfit; cases h; exact .inr ⟨rom, rfl, by simpa using hfit, rfl⟩
  | restore a => simp only [deliver, restoreArch] at h; split at h <;> cases h
  | reset | tick | setKey | snapshot => cases h

/-- Settles O10: one clause for each place where a CPU step can fault, and the load. -/
theorem stepFaultsOnlyAsListed : Obligations.StepFaultsOnlyAsListed := by
  intro s f h
  obtain ⟨hev, hcpu⟩ | ⟨rom, hev, hfit, rfl⟩ := deliver_fault h
  · refine .inl ⟨hev, ?_⟩
    obtain ⟨hfetch, rfl⟩ | ⟨op, i, hfetch, hd, hx⟩ := cpuStep_fault hcpu
    · exact .inl ⟨rfl, s.fetch_none.mp hfetch⟩
    · obtain ⟨rfl, hstack, rfl⟩ | ⟨⟨n, rfl⟩, hfull, rfl⟩ := exec_fault hx
      · exact .inr (.inl ⟨rfl, eq_of_decodeWord_ret hd ▸ hfetch, hstack⟩)
      · exact .inr (.inr ⟨rfl, s.full_iff.mp hfull, op, hfetch, top_of_decodeWord_call hd⟩)
  · exact .inr ⟨rom, hev, rfl, not_le.mp (of_decide_eq_false hfit)⟩

/-! #### What a fault depends on -/

section
variable {s t : State} (hpc : t.pc = s.pc) (hstack : t.stack = s.stack)
  (hparams : t.params = s.params)
include hpc hstack hparams

/-- The fault of an instruction depends on `pc`, the stack and its depth alone (R172, R173). -/
theorem exec_fault_congr {i : Instr} {f : Fault} (h : exec i s = .fault f) :
    exec i t = .fault f := by
  obtain ⟨rfl, hempty, rfl⟩ | ⟨⟨n, rfl⟩, hfull, rfl⟩ := exec_fault h
  · rw [← hpc]
    exact exec_ret_of_nil (hstack.trans hempty)
  · rw [← hpc]
    exact exec_call_of_full (by rw [State.full, State.sp, hstack, hparams]; exact hfull) n

/-- The fault of a CPU step depends on these and on memory alone (R178). -/
theorem cpuStep_fault_congr (hmem : t.mem = s.mem) {f : Fault} (h : cpuStep s = .fault f) :
    cpuStep t = .fault f := by
  have hfetch : t.fetch = s.fetch := by simp only [State.fetch, State.read, hpc, hmem, hparams]
  obtain ⟨hnone, rfl⟩ | ⟨op, i, hsome, hd, hx⟩ := cpuStep_fault h
  · simp only [cpuStep, hfetch, hnone, hpc, raise]
  · simp only [cpuStep, hfetch, hsome, hd]
    exact exec_fault_congr hpc hstack hparams hx

end

/-- Settles O13: a tick writes the timers and a key event one key, on which no fault depends. -/
theorem tickAndSetKeyDoNotClearAFault : Obligations.TickAndSetKeyDoNotClearAFault := fun s _ h =>
  ⟨cpuStep_fault_congr (s := s) (t := s.tick) rfl rfl rfl rfl h,
    fun k b => cpuStep_fault_congr (s := s) (t := s.setKey k b) rfl rfl rfl rfl h⟩

end Sys2Proof.Machine

/-! ### The timers and the keys (R183, R187, R207) -/

namespace Sys2Proof.Machine

/-! #### Runs -/

/-- A run of one event more is a step and then a run from where it ends. -/
theorem runsTo_succ {n : Nat} {s u : State} :
    RunsTo (n + 1) s u ↔ ∃ t, step s = .next t ∧ RunsTo n t u := by
  have hrun : Host.Core.run core (n + 1) s = andThen (step s) (Host.Core.run core n) := by
    cases h : step s <;> simp only [Host.Core.run, core, h, andThen]
  rw [RunsTo, hrun]
  exact andThen_next

/-- A run of one event is a step. -/
theorem runsTo_one {s t : State} (h : step s = .next t) : RunsTo 1 s t :=
  runsTo_succ.mpr ⟨t, h, rfl⟩

/-- A run goes on from where an earlier one ended. -/
theorem RunsTo.trans {m n : Nat} {s t u : State} (hst : RunsTo m s t) (htu : RunsTo n t u) :
    RunsTo (m + n) s u := by
  induction m generalizing s with
  | zero => cases hst; rwa [Nat.zero_add]
  | succ m ih =>
    obtain ⟨v, hsv, hvt⟩ := runsTo_succ.mp hst
    rw [Nat.succ_add]
    exact runsTo_succ.mpr ⟨v, hsv, ih hvt⟩

/-! #### Ticks -/

/-- A timer that is not 0 goes down by 1 (R183). -/
theorem countDown_toNat_add_one {b : Byte} (h : b ≠ 0#8) : (countDown b).toNat + 1 = b.toNat := by
  have hpos : b.toNat ≠ 0 := fun e => h (BitVec.eq_of_toNat_eq e)
  rw [countDown_toNat]
  omega

/-- A timer at 0 stays there (R183). -/
theorem countDown_of_eq_zero {b : Byte} (h : b = 0#8) : countDown b = 0#8 := by rw [h]; rfl

/-- A chosen tick completes (R183). -/
theorem step_of_tick {s : State} {es : List Event} (h : s.schedule = .tick :: es) :
    step s = .next (s.setSchedule es).tick :=
  step_of_schedule h

/-- A state meets every frame from itself. -/
theorem OnlyChanges.refl (ds : List Reg) (ps : List Part) (s : State) : OnlyChanges ds ps s s :=
  .of_regs (fun _ _ => rfl) rfl

/-- Settles O44: each timer is counted down by itself, and nothing else is written. -/
theorem tickDecrementsBothTimers : Obligations.TickDecrementsBothTimers := by
  intro s es h
  have hframe := OnlyChanges.refl [] [.delay, .sound] (s.setSchedule es)
  exact ⟨_, step_of_tick h, countDown_toNat_add_one, countDown_of_eq_zero,
    countDown_toNat_add_one, countDown_of_eq_zero, rfl,
    (hframe.setDt (by decide) _).setSt (by decide) _⟩

/-- Settles O45, by induction on the number of ticks. -/
theorem ticksCountTimersDownToZero : Obligations.TicksCountTimersDownToZero := by
  intro n
  induction n with
  | zero => exact fun s es h => ⟨s, rfl, rfl, rfl, h, rfl⟩
  | succ n ih =>
    intro s es h
    let u := (s.setSchedule (List.replicate n .tick ++ es)).tick
    have hdt : u.dt.toNat = s.dt.toNat - 1 := countDown_toNat s.dt
    have hst : u.st.toNat = s.st.toNat - 1 := countDown_toNat s.st
    obtain ⟨t, hrun, htdt, htst, hes, hpc⟩ := ih u es rfl
    exact ⟨t, runsTo_succ.mpr ⟨u, step_of_tick h, hrun⟩, by omega, by omega, hes, hpc⟩

/-! #### Keys -/

/-- Settles O46: the one key written is read back, and putting the keys back undoes the event. -/
theorem setKeyChangesOneKey : Obligations.SetKeyChangesOneKey := by
  intro s k b es h
  refine ⟨(s.setSchedule es).setKey k b, step_of_schedule h, ?_, fun j hj => ?_, rfl⟩
  · rw [State.setKey_pressed, if_pos rfl]
  · rw [State.setKey_pressed, if_neg hj.symm, State.setSchedule_pressed]

end Sys2Proof.Machine

/-! ### Snapshot and restore (R190) -/

namespace Sys2Proof.Machine

/-- Settles O50: the copy goes to the host, and nothing else is written. -/
theorem snapshotCopiesAndChangesNothing : Obligations.SnapshotCopiesAndChangesNothing :=
  fun s es h => ⟨(s.setSchedule es).snapshot, step_of_schedule h, rfl, rfl, rfl, rfl, rfl⟩

/-- Settles O51: the two branches of the restore. -/
theorem restoreReplacesTheStateOrIsRefused : Obligations.RestoreReplacesTheStateOrIsRefused := by
  intro s a es h
  have hstep : step s = restoreArch a (s.setSchedule es) := step_of_schedule h
  refine ⟨fun ha => ⟨(s.setSchedule es).setArch a, ?_, rfl, rfl, rfl, rfl, rfl⟩, fun ha => ?_⟩
  · exact hstep.trans (if_pos ha)
  · exact hstep.trans (if_neg ha)

/-! #### What every event leaves to the environment -/

/-- No instruction writes the chosen events (log entry 4). -/
theorem exec_schedule {i : Instr} {s t : State} (h : exec i s = .next t) :
    t.schedule = s.schedule := by
  cases exec_effect h <;> rfl

/-- No event writes the events chosen after it (R10; log entry 4). -/
theorem deliver_schedule {e : Event} {s t : State} (h : deliver e s = .next t) :
    t.schedule = s.schedule := by
  cases e with
  | cpu =>
    obtain ⟨-, i, -, -, hx⟩ | ⟨-, -, -, rfl⟩ := cpuStep_next h
    · exact exec_schedule hx
    · exact State.advance_schedule s
  | load rom => obtain ⟨-, rfl⟩ := loadRom_next h; exact State.setMem_schedule ..
  | restore a => obtain ⟨-, rfl⟩ := restoreArch_next h; exact State.setArch_schedule ..
  | reset | tick | setKey | snapshot => cases h; rfl

/-- No event takes a snapshot out of the host's hands (R190). -/
theorem mem_taken_of_deliver {e : Event} {s t : State} (h : deliver e s = .next t) {a : Arch}
    (ha : a ∈ s.taken) : a ∈ t.taken := by
  cases e with
  | cpu =>
    obtain ⟨-, i, -, -, hx⟩ | ⟨-, -, -, rfl⟩ := cpuStep_next h
    · rwa [exec_taken hx]
    · exact ha
  | load rom => obtain ⟨-, rfl⟩ := loadRom_next h; exact ha
  | restore b => obtain ⟨-, rfl⟩ := restoreArch_next h; exact ha
  | snapshot => cases h; exact List.mem_append_left _ ha
  | reset | tick | setKey => cases h; exact ha

/-- The events that always complete do so (R170, R201). -/
theorem deliver_completes {e : Event} (he : alwaysCompletes e = true) (s : State) :
    ∃ t, deliver e s = .next t := by
  cases e with
  | load rom => exact ⟨_, if_pos he⟩
  | cpu | restore => cases he
  | reset | tick | setKey | snapshot => exact ⟨_, rfl⟩

/-! #### A run through chosen events -/

/-- A run through the chosen events `es` leaves those after them, and the snapshots the host had. -/
theorem RunsTo.environment {es rest : List Event} {s u : State} (hrun : RunsTo es.length s u)
    (h : s.schedule = es ++ rest) : u.schedule = rest ∧ ∀ a ∈ s.taken, a ∈ u.taken := by
  induction es generalizing s with
  | nil => cases hrun; exact ⟨h, fun _ ha => ha⟩
  | cons e es ih =>
    obtain ⟨t, hstep, htu⟩ := runsTo_succ.mp hrun
    rw [step_of_schedule h] at hstep
    obtain ⟨hrest, hkeep⟩ := ih htu (deliver_schedule hstep)
    exact ⟨hrest, fun a ha => hkeep a (mem_taken_of_deliver hstep ha)⟩

/-- A run through chosen events that always complete, completes. -/
theorem runsTo_of_alwaysCompletes {es rest : List Event} {s : State}
    (hes : ∀ e ∈ es, alwaysCompletes e = true) (h : s.schedule = es ++ rest) :
    ∃ u, RunsTo es.length s u := by
  induction es generalizing s with
  | nil => exact ⟨s, rfl⟩
  | cons e es ih =>
    obtain ⟨he, hes⟩ := List.forall_mem_cons.mp hes
    obtain ⟨t, ht⟩ := deliver_completes he (s.setSchedule (es ++ rest))
    obtain ⟨u, hu⟩ := ih hes (deliver_schedule ht)
    exact ⟨u, runsTo_succ.mpr ⟨t, (step_of_schedule h).trans ht, hu⟩⟩

/-- Settles O52: the snapshot is the value that the host holds until the restore, whatever runs in
between. -/
theorem restoreOfSnapshotRoundTrips : Obligations.RestoreOfSnapshotRoundTrips := by
  intro s es rest h
  obtain ⟨v, hsv, -, htaken, hsched, -⟩ := snapshotCopiesAndChangesNothing s _ h
  have restores : ∀ u, RunsTo (es.length + 1) s u →
      ∃ t, step u = .next t ∧ t.toArch = s.toArch ∧ t.schedule = rest := fun u hrun => by
    obtain ⟨w, hsw, hwu⟩ := runsTo_succ.mp hrun
    obtain rfl : v = w := by rw [hsv] at hsw; cases hsw; rfl
    obtain ⟨hu, hkeep⟩ := hwu.environment hsched
    have hheld : s.toArch ∈ u.taken := hkeep _ (by simp [htaken])
    obtain ⟨t, ht, harch, hrest, -⟩ := (restoreReplacesTheStateOrIsRefused u _ _ hu).1 hheld
    exact ⟨t, ht, harch, hrest⟩
  refine ⟨restores, fun hes => ?_⟩
  obtain ⟨u, hvu⟩ := runsTo_of_alwaysCompletes hes hsched
  have hsu : RunsTo (es.length + 1) s u := runsTo_succ.mpr ⟨v, hsv, hvu⟩
  obtain ⟨t, hut, hend⟩ := restores u hsu
  exact ⟨t, hsu.trans (runsTo_one hut), hend⟩

end Sys2Proof.Machine

/-! ### The fields of the environment under an instruction (R29, R189)

All three are replaced at once, so that one case split over the instructions serves each of them. -/

namespace Sys2Proof.Machine

/-- The three fields of the environment replaced: the count of drawn bytes, the chosen events and
the snapshots (log entries 3 and 4). -/
def State.setEnv (s : State) (d : Nat) (es : List Event) (as : List Arch) : State :=
  { s with draws := d, schedule := es, taken := as }

section
variable (s : State) (d : Nat) (es : List Event) (as : List Arch)

/-- A skip tests a condition given to it (43_skip.md). -/
theorem State.setEnv_skipIf (c : Bool) :
    (s.setEnv d es as).skipIf c = (s.skipIf c).setEnv d es as := by
  cases c <;> rfl

/-- The block store reads registers and writes memory (R154). -/
theorem State.setEnv_storeRegs (n : Nat) :
    (s.setEnv d es as).storeRegs n = (s.storeRegs n).setEnv d es as := by
  induction n with
  | zero => rfl
  | succ n ih => rw [State.storeRegs_succ, State.storeRegs_succ, ih]; rfl

/-- The block load reads memory and writes registers (R155). -/
theorem State.setEnv_loadRegs (n : Nat) :
    (s.setEnv d es as).loadRegs n = (s.loadRegs n).setEnv d es as := by
  induction n with
  | zero => rfl
  | succ n ih => rw [State.loadRegs_succ, State.loadRegs_succ, ih]; rfl

/-- An instruction other than CXNN does the same whatever the environment's fields hold (R29,
R189). -/
theorem exec_setEnv {i : Instr} (hi : ∀ x nn, i ≠ .rnd x nn) :
    exec i (s.setEnv d es as) = andThen (exec i s) fun t => .next (t.setEnv d es as) := by
  cases i with
  | rnd x nn => exact absurd rfl (hi x nn)
  | ret =>
    have htop : (s.setEnv d es as).top = s.top := rfl
    simp only [exec, execRet, htop]
    cases s.top <;> rfl
  | call n =>
    have hfull : (s.setEnv d es as).full = s.full := rfl
    simp only [exec, execCall, hfull]
    cases s.full <;> rfl
  | ldVxK x =>
    have hkey : (s.setEnv d es as).lowestKey = s.lowestKey := rfl
    simp only [exec, execLdVxK, hkey]
    cases s.lowestKey <;> rfl
  | seImm | sneImm | seReg | sneReg | skp | sknp =>
    exact congrArg Host.Outcome.next (s.setEnv_skipIf d es as _)
  | ldMemVx x => exact congrArg (Host.Outcome.next ·.advance) (s.setEnv_storeRegs d es as _)
  | ldVxMem x => exact congrArg (Host.Outcome.next ·.advance) (s.setEnv_loadRegs d es as _)
  | _ => rfl

/-- Passing a completed outcome on through functions that agree on it gives the same outcome. -/
theorem andThen_congr {o : Out} {f g : State → Out} (h : ∀ t, o = .next t → f t = g t) :
    andThen o f = andThen o g := by
  cases o with
  | next t => exact h t rfl
  | fault | refused => rfl

/-- An instruction other than CXNN leaves the environment's fields as they are. -/
theorem setEnv_of_exec {i : Instr} (hi : ∀ x nn, i ≠ .rnd x nn) {t : State}
    (h : exec i s = .next t) : t.setEnv s.draws s.schedule s.taken = t := by
  have hsame : exec i s = andThen (exec i s) fun t => .next (t.setEnv s.draws s.schedule s.taken) :=
    exec_setEnv s s.draws s.schedule s.taken hi
  rw [h] at hsame
  exact (Host.Outcome.next.inj hsame).symm

end

/-- Settles O58: each clause replaces one of the three fields and keeps the other two, which an
instruction other than CXNN leaves as they are; CXNN reads and writes the count alone. -/
theorem instructionsIgnoreTheEnvironment : Obligations.InstructionsIgnoreTheEnvironment := by
  intro i s
  by_cases hi : ∀ x nn, i ≠ .rnd x nn
  · refine ⟨fun _ d => ?_, fun es => ?_, fun as => ?_⟩
    · exact (exec_setEnv s d s.schedule s.taken hi).trans <| andThen_congr fun t ht =>
        congrArg (Host.Outcome.next <| State.setDraws · d) (setEnv_of_exec s hi ht)
    · exact (exec_setEnv s s.draws es s.taken hi).trans <| andThen_congr fun t ht =>
        congrArg (Host.Outcome.next <| State.setSchedule · es) (setEnv_of_exec s hi ht)
    · exact (exec_setEnv s s.draws s.schedule as hi).trans <| andThen_congr fun t ht =>
        congrArg (Host.Outcome.next <| State.setTaken · as) (setEnv_of_exec s hi ht)
  · obtain ⟨x, nn, rfl⟩ : ∃ x nn, i = .rnd x nn := by simpa using hi
    exact ⟨fun hi => absurd rfl (hi x nn), fun _ => rfl, fun _ => rfl⟩

end Sys2Proof.Machine

/-! ### Reset, load and boot (R32, R200 to R202) -/

namespace Sys2Proof.Machine

/-! #### Reset -/

/-- A chosen reset completes from every state (R200). -/
theorem step_of_reset {s : State} {es : List Event} (h : s.schedule = .reset :: es) :
    step s = .next (s.setSchedule es).reboot :=
  step_of_schedule h

/-- Memory right after reset holds FONT from 0x000 to 0x04F (R28, R32). -/
theorem State.reboot_read_font (s : State) (a : Addr) (h : a.toNat < 80) :
    s.reboot.read a = s.params.font[a.toNat] :=
  dif_pos h

/-- Memory right after reset is zero from 0x050 on (R32). -/
theorem State.reboot_read_zero (s : State) {a : Addr} (h : 80 ≤ a.toNat) :
    s.reboot.read a = 0#8 :=
  dif_neg (not_lt.mpr h)

/-- Every general register is 0 right after reset (R32). -/
theorem State.reboot_reg (s : State) (x : Reg) : s.reboot.reg x = 0#8 :=
  Vector.getElem_replicate ..

/-- Every key is released right after reset (R32). -/
theorem State.reboot_pressed (s : State) (k : Key) : s.reboot.pressed k = false :=
  Vector.getElem_replicate ..

/-- Settles O47: the indexed pieces of state by the lemmas above, the others by evaluation. -/
theorem resetLeavesTheResetValues : Obligations.ResetLeavesTheResetValues := by
  intro s es h
  exact ⟨_, step_of_reset h, State.reboot_reg _, rfl, rfl, rfl, rfl, rfl, Frame.cell_blank,
    State.reboot_read_font (s.setSchedule es), fun _ => State.reboot_read_zero _,
    State.reboot_pressed _, rfl, rfl, rfl⟩

/-! #### Load -/

/-- A chosen load of a ROM that fits completes and writes memory alone (R201). -/
theorem step_of_load {s : State} {rom : List Byte} {es : List Event}
    (h : s.schedule = .load rom :: es) (hfit : 0x200 + rom.length ≤ 4096) :
    step s = .next
      ((s.setSchedule es).setMem (s.mem.writeAll s.params.font Config.romBase rom)) :=
  (step_of_schedule h).trans (if_pos (decide_eq_true hfit))

/-- A chosen load of a ROM that does not fit (R175, R201). -/
theorem step_of_load_too_large {s : State} {rom : List Byte} {es : List Event}
    (h : s.schedule = .load rom :: es) (hfit : 4096 < 0x200 + rom.length) :
    step s = .fault (.romTooLarge rom.length) :=
  (step_of_schedule h).trans (if_neg fun hr => not_le.mpr hfit (of_decide_eq_true hr))

/-- Settles O48: the copy puts each byte at its address and leaves every other address alone. -/
theorem loadCopiesTheRomOrFaults : Obligations.LoadCopiesTheRomOrFaults := by
  intro s rom es h
  refine ⟨fun hfit => ⟨_, step_of_load h hfit, fun j hj => ?_, fun a ha => ?_, rfl, ?_⟩,
    step_of_load_too_large h⟩
  · exact Memory.read_writeAll rom s.mem _ j hj hfit
  · exact Memory.read_writeAll_ne rom s.mem _ a hfit ha
  · exact { OnlyChanges.refl [] [.memory] (s.setSchedule es) with
      memory := fun hn => absurd (List.mem_singleton_self _) hn }

/-! #### Boot -/

/-- Settles O49: after the reset and the load the fetch at 0x200 reads the first two bytes of the
ROM. -/
theorem bootRunsTheFirstRomInstruction : Obligations.BootRunsTheFirstRomInstruction := by
  intro s hi lo rest i es h hlen hdec
  have hfit : 0x200 + (hi :: lo :: rest).length ≤ 4096 := by simp only [List.length_cons]; omega
  let m := Memory.writeAll s.params.font [] Config.romBase (hi :: lo :: rest)
  let v := (s.setSchedule (.load (hi :: lo :: rest) :: .cpu :: es)).reboot
  let u := (v.setSchedule (.cpu :: es)).setMem m
  have hsv : step s = .next v := step_of_reset h
  have hvu : step v = .next u := step_of_load rfl hfit
  have hpc : u.pc.toNat = 0x200 := rfl
  have hbytes : u.fetchBytes = [hi, lo] := by
    have hhi : u.read 0x200#12 = hi := Memory.read_writeAll _ _ Config.romBase 0 (by simp) hfit
    have hlo : u.read 0x201#12 = lo := Memory.read_writeAll _ _ Config.romBase 1 (by simp) hfit
    calc u.fetchBytes = [u.read 0x200#12, u.read 0x201#12] := rfl
      _ = [hi, lo] := by rw [hhi, hlo]
  exact ⟨u, runsTo_succ.mpr ⟨v, hsv, runsTo_one hvu⟩, hpc,
    step_of_decode rfl (by omega) (hbytes ▸ hdec), rfl⟩

end Sys2Proof.Machine
